-- ==== Sys2Proof/Word.lean ====
section
/-! DEFINITION. The word types of the hardware and nothing else (10_state.md, 00_scope.md section 6: u8, u16, nibbles, 12-bit addresses). -/

namespace Sys2Proof

/-- A `u8`: a register, a memory byte, a display cell, an 8-bit immediate NN. -/
abbrev Byte := BitVec 8

/-- A `u16`: PC, I, a stack slot, a keymask, an instruction word. -/
abbrev Half := BitVec 16

/-- A 4-bit field of an instruction: a register index X or Y, or a row count N (30_encoding.md R61). -/
abbrev Nibble := BitVec 4

/-- A 12-bit address field NNN (30_encoding.md R61). -/
abbrev Addr := BitVec 12

end Sys2Proof
end

