-- ==== Sys2Proof/Config.lean ====
section
/-! DEFINITION. What is fixed for one instance of the machine: the sizes of 00_scope.md R3, the parameters of R4, and the free values (constants without a body) that stand for what the spec leaves to the host or leaves unspecified. -/

namespace Sys2Proof.Config

/-- 00_scope.md R3: `MEM_SIZE`. -/
def memSize : Nat := 4096
/-- 00_scope.md R3: `WIDTH`. -/
def width : Nat := 64
/-- 00_scope.md R3: `HEIGHT`. -/
def height : Nat := 32
/-- 00_scope.md R3: `STACK_CAP`. -/
def stackCap : Nat := 16
/-- 00_scope.md R3: `FONT_BASE`. -/
def fontBase : Nat := 0x050
/-- 00_scope.md R3: `GLYPH_BYTES`. -/
def glyphBytes : Nat := 5
/-- 00_scope.md R3: `PROG_BASE`. -/
def progBase : Nat := 0x200
/-- 00_scope.md R3: `TIMER_HZ`. -/
def timerHz : Int := 60
/-- 70_reset_and_hazards.md R225: the longest program, 4096 - 0x200. -/
def maxProgram : Nat := 3584

/-- 00_scope.md R4: the two pixel regimes. -/
inductive PixelMode where
  | binary
  | alpha
deriving DecidableEq, Repr

/-- 00_scope.md R4: `FADE_STEP`, a byte of 1..255. -/
structure FadeStep where
  val : Byte
  pos : 0 < val.toNat
deriving DecidableEq, Repr

/-- 00_scope.md R4: the parameters of one instance, fixed before reset (70_reset_and_hazards.md R220).
The state carries them because a step takes a state and nothing else; no step and no port changes them (log 4, 5). -/
structure Params where
  /-- `PIXEL_MODE`. -/
  pixelMode : PixelMode
  /-- `FADE_STEP`; only the alpha regime reads it. -/
  fadeStep  : FadeStep
  /-- `FONT[0..79]`. -/
  font      : Vector Byte 80
deriving DecidableEq, Repr

/-- 20_memory.md R42: the default font, glyphs 0 to 7 at 0x050..0x077 and 8 to F at 0x078..0x09F. -/
def defaultFont : Vector Byte 80 :=
  (#v[0xF0, 0x90, 0x90, 0x90, 0xF0,  0x20, 0x60, 0x20, 0x20, 0x70,
     0xF0, 0x10, 0xF0, 0x80, 0xF0,  0xF0, 0x10, 0xF0, 0x10, 0xF0] : Vector Byte 20) ++
  (#v[0x90, 0x90, 0xF0, 0x10, 0x10,  0xF0, 0x80, 0xF0, 0x10, 0xF0,
     0xF0, 0x80, 0xF0, 0x90, 0xF0,  0xF0, 0x10, 0x20, 0x40, 0x40] : Vector Byte 20) ++
  (#v[0xF0, 0x90, 0xF0, 0x90, 0xF0,  0xF0, 0x90, 0xF0, 0x10, 0xF0,
     0xF0, 0x90, 0x90, 0xF0, 0x90,  0xE0, 0x90, 0xE0, 0x90, 0xE0] : Vector Byte 20) ++
  (#v[0xF0, 0x80, 0x80, 0x80, 0xF0,  0xE0, 0x90, 0x90, 0x90, 0xE0,
     0xF0, 0x80, 0xF0, 0x80, 0xF0,  0xF0, 0x80, 0xF0, 0x80, 0x80] : Vector Byte 20)

/-- 00_scope.md R4: the defaults (`binary`, `FADE_STEP` = 1, the font of 20_memory.md R42). -/
def defaultParams : Params := { pixelMode := .binary, fadeStep := ⟨1, by decide⟩, font := defaultFont }

/-- FREE VALUE (log 1): what a poll of `keys_in` returns when the host has lined up no sample; the argument is the draw's number. -/
opaque freeKeys : Nat → Half

/-- FREE VALUE (log 2): what a sample of `rand_in` returns when the host has lined up none; the argument is the draw's number. -/
opaque freeRand : Nat → Byte

/-- FREE VALUES (log 7): an unspecified byte after AddrFault; arguments: the draw's number, which byte. -/
opaque freeByte : Nat → Nat → Byte

/-- FREE VALUES (log 7): an unspecified 16-bit value after AddrFault. -/
opaque freeHalf : Nat → Nat → Half

/-- FREE VALUES (log 7): an unspecified bit after AddrFault. -/
opaque freeBit : Nat → Nat → Bool

/-- FREE VALUES (log 7): an unspecified timer remainder after AddrFault. -/
opaque freeRemainder : Nat → Nat → Rat

end Sys2Proof.Config
end

