-- ==== Sys2Proof/Machine/State.lean ====
section
/-! DEFINITION. The state of the machine as plain data (10_state.md R30 lists the spec's state), the events of a cycle, the reasons a step can stop, and the state after reset. -/

namespace Sys2Proof.Machine

/-- A sparse array of bytes: (address, byte) pairs in one canonical form (Machine/Memory.lean says which). -/
abbrev Cells := List Host.Cell

/-- 10_state.md R22: a two-valued configuration toggle. -/
inductive Toggle where
  | old
  | new
deriving DecidableEq, Repr

/-- 46_cycle_driver.md R178: what a cycle can emit. -/
inductive Event where
  /-- The source's audio callback (60_exceptions.md R205). -/
  | audioToggle
  /-- One sample of `keys_in` (44_input_random_timer.md R152). -/
  | poll
  /-- One sample of `rand_in` (44_input_random_timer.md R150). -/
  | rand
  /-- A CALL on a full stack (40_control_flow.md R82). -/
  | stackOverflow
  /-- A RET on an empty stack (40_control_flow.md R80). -/
  | stackUnderflow
  /-- An access that needs the byte at this address, above 0xFFF (20_memory.md R45). -/
  | addrFault (addr : Nat)
deriving DecidableEq, Repr

/-- Why an access or an instruction breaks off. -/
inductive Fault where
  /-- The spec's `raise AddrFault(addr)` (20_memory.md R45): raised by the fetch, DRW, LD_B, ST_regs and LD_regs when they need the byte
  at `addr`, which is above 0xFFF. Inside a cycle only: `step` takes it and answers the faulted next state (log 6). SAFE: it claims nothing
  that the spec does not say. -/
  | addrFault (addr : Nat)
deriving DecidableEq, Repr

/-- What has no meaning in the model. -/
inductive Refusal where
  /-- An instruction without a meaning yet; raised by `exec`'s refused arms only (there is none left). SAFE: nothing is claimed. -/
  | notModelled (mnemonic : String)
  /-- CALL or RET with more than 16 items on the stack, which only the debug port can bring about and for which 60_exceptions.md R211
  says that a model refuses it (log 8). SAFE: nothing is claimed of a state the spec gives no meaning to. -/
  | stackCursorOutOfRange
  /-- A step with `FR` = 0, which no port can bring about (10_state.md R24, R31; log 9). SAFE: no such machine exists. -/
  | frameRateZero
  /-- `load` of more than 3584 bytes (70_reset_and_hazards.md R225); raised by the host's move, by no step. SAFE: the spec refuses it. -/
  | loadTooLong
  /-- `load` into a faulted core (70_reset_and_hazards.md R225); raised by the host's move. SAFE: the spec refuses it. -/
  | loadWhileFaulted
  /-- `fr_write(0)` (70_reset_and_hazards.md R227); raised by the host's move. SAFE: the spec refuses it. -/
  | frWriteZero
deriving DecidableEq, Repr

/-- The whole state. The first eighteen fields are the spec's (10_state.md R30); `par` holds the parameters of 00_scope.md R4 (log 4, 5);
the last four are the model's own and carry the ports of 00_scope.md R6 (log 1, 2, 3). -/
structure State where
  /-- V[0]..V[15] (R10); V[15] is VF (R11). -/
  v            : Vector Byte 16
  /-- PC (R12). -/
  pc           : Half
  /-- I (R13). -/
  i            : Half
  /-- mem, 0x000..0xFFF (R14). -/
  mem          : Cells
  /-- disp, flat index y*64 + x (R15). -/
  disp         : Cells
  /-- stack[0..15] (R26). -/
  stack        : Vector Half 16
  /-- sp, the number of items held (R26), 5 bits. -/
  sp           : BitVec 5
  /-- DT (R16). -/
  dt           : Byte
  /-- ST (R17). -/
  st           : Byte
  /-- The remainder of DT, an exact rational (R18). -/
  drem         : Rat
  /-- The remainder of ST, an exact rational (R18). -/
  srem         : Rat
  /-- lastKeyState (R19). -/
  lastKeyState : Half
  /-- snd_on (R20). -/
  sndOn        : Bool
  /-- fault (R21). -/
  fault        : Bool
  /-- cfg_shift (R22). -/
  cfgShift     : Toggle
  /-- cfg_jump (R22). -/
  cfgJump      : Toggle
  /-- cfg_ldst (R22). -/
  cfgLdst      : Toggle
  /-- FR (R24). -/
  fr           : Half
  /-- PIXEL_MODE, FADE_STEP and FONT (00_scope.md R4): constant for one instance. -/
  par          : Config.Params
  /-- The `keys_in` samples the host has lined up, first poll first (model's own, log 1). -/
  keyTape      : List Half
  /-- The `rand_in` samples the host has lined up (model's own, log 2). -/
  randTape     : List Byte
  /-- How many free values have been drawn (model's own, log 1, 2, 7). -/
  draws        : Nat
  /-- The events of the latest step, in the order produced (model's own, log 3; 46_cycle_driver.md R178). -/
  out          : List Event
deriving DecidableEq, Repr

/-- 10_state.md R30, 70_reset_and_hazards.md R220: the state after `reset` with the default parameters. The font is in memory because an
address that `mem` does not list reads as the reset contents (`blankMem` in Machine/Memory.lean). The model's own fields start empty (log 17). -/
def State.reset : State where
  v := Vector.replicate 16 0
  pc := 0x0200
  i := 0x0000
  mem := []
  disp := []
  stack := Vector.replicate 16 0
  sp := 0
  dt := 0
  st := 0
  drem := 0
  srem := 0
  lastKeyState := 0x0000
  sndOn := false
  fault := false
  cfgShift := .new
  cfgJump := .old
  cfgLdst := .new
  fr := 60
  par := Config.defaultParams
  keyTape := []
  randTape := []
  draws := 0
  out := []

end Sys2Proof.Machine
end

