-- ==== Sys2Proof/Machine/Flags.lean ====
section
/-! DEFINITION. Every value the hardware writes to VF as a flag (10_state.md R11, 41_alu.md R118). -/

namespace Sys2Proof.Machine

/-- A flag as the byte VF receives. -/
def flagByte (c : Bool) : Byte := if c then 1 else 0

/-- 41_alu.md R106: the carry, the exact sum exceeds 255. -/
def carryFlag (a b : Byte) : Byte := flagByte (decide (255 < a.toNat + b.toNat))

/-- 41_alu.md R107, R109: 1 iff the minuend is strictly greater than the subtrahend. -/
def greaterFlag (minuend subtrahend : Byte) : Byte := flagByte (decide (subtrahend.toNat < minuend.toNat))

/-- 41_alu.md R108: the bit a right shift moves out, bit 0. -/
def lowBitFlag (a : Byte) : Byte := a &&& 1

/-- 41_alu.md R110: the bit a left shift moves out, bit 7. -/
def highBitFlag (a : Byte) : Byte := (a >>> 7) &&& 1

/-- 42_index_memory.md R121: the new index is strictly greater than 0x1000. -/
def indexExceeds (i : Half) : Bool := decide (0x1000 < i.toNat)

end Sys2Proof.Machine
end

