-- ==== Sys2Proof/Machine/Memory.lean ====
section
/-! DEFINITION. The two byte arrays of the hardware (10_state.md R14, R15) as sparse lists in canonical form, and the memory primitives of 20_memory.md R47 with the range check of R45. -/

namespace Sys2Proof.Machine

/-! ### Sparse arrays

`blank` says what an address that is not listed holds. -/

/-- The byte at an address. -/
def cellRead (blank : Nat → Byte) : Cells → Nat → Byte
  | [], a => blank a
  | (k, b) :: t, a => if k = a then b else cellRead blank t a

/-- The array without what it lists at an address. -/
def cellErase (m : Cells) (a : Nat) : Cells := m.filter fun c => c.1 != a

/-- List a byte at an address that is not listed, before the first higher address. -/
def cellInsert : Cells → Nat → Byte → Cells
  | [], a, v => [(a, v)]
  | (k, b) :: t, a, v => if a < k then (a, v) :: (k, b) :: t else (k, b) :: cellInsert t a v

/-- Store a byte, keeping the canonical form: addresses rise strictly and no entry holds what its address reads as unlisted. -/
def cellWrite (blank : Nat → Byte) (m : Cells) (a : Nat) (v : Byte) : Cells :=
  if v = blank a then cellErase m a else cellInsert (cellErase m a) a v

/-- The array of the first `limit` values of a function, in canonical form. (Irreducible: no proof should write out its cells.) -/
@[irreducible] def cellTabulate (blank : Nat → Byte) (limit : Nat) (f : Nat → Byte) : Cells :=
  (List.range limit).filterMap fun a => if f a = blank a then none else some (a, f a)

/-- Apply `g` to every cell of an array whose unlisted cells are 0; `g 0 = 0` is the caller's duty. -/
def cellMap (g : Byte → Byte) (m : Cells) : Cells :=
  m.filterMap fun c => if g c.2 = 0 then none else some (c.1, g c.2)

/-- The canonical form: addresses rise strictly and stay below `limit`, and no entry holds what its address reads as unlisted. -/
abbrev cellWf (blank : Nat → Byte) (limit : Nat) (m : Cells) : Prop :=
  m.Pairwise (fun c d => c.1 < d.1) ∧ ∀ c ∈ m, c.1 < limit ∧ c.2 ≠ blank c.1

/-! ### Memory -/

/-- What an address of `mem` that is not listed holds: the reset contents of 10_state.md R30, the default font at 0x050..0x09F (20_memory.md R41, R42) and 0 elsewhere. -/
def blankMem (a : Nat) : Byte :=
  if 0x050 ≤ a ∧ a < 0x0A0 then Config.defaultFont.toList.getD (a - 0x050) 0 else 0

/-- The canonical form of `mem` (20_memory.md R40: addresses 0x000..0xFFF). -/
abbrev Memory.wf (m : Cells) : Prop := cellWf blankMem Config.memSize m

/-- The byte of memory at an address. -/
def memByte (s : State) (a : Nat) : Byte := cellRead blankMem s.mem a

/-- 20_memory.md R47: `MemRead(addr, 1)`, with AddrFault above 0xFFF (R45). -/
def memRead (m : Cells) (a : Nat) : Except Fault Byte :=
  if a < Config.memSize then .ok (cellRead blankMem m a) else .error (.addrFault a)

/-- 20_memory.md R47: `MemRead(addr, 2)`, big-endian (R43); the first byte out of range is the one reported (60_exceptions.md R193). -/
def memRead2 (m : Cells) (a : Nat) : Except Fault Half :=
  match memRead m a, memRead m (a + 1) with
  | .ok hi, .ok lo => .ok (hi ++ lo)
  | .error f, _ => .error f
  | .ok _, .error f => .error f

/-- 20_memory.md R47: `MemWrite(addr, 1, v)`, with AddrFault above 0xFFF (R45). -/
def memWrite (m : Cells) (a : Nat) (v : Byte) : Except Fault Cells :=
  if a < Config.memSize then .ok (cellWrite blankMem m a v) else .error (.addrFault a)

/-- Byte stores at ascending addresses `a`, `a + 1`, ... (20_memory.md R47); the addresses are exact sums (42_index_memory.md R127). -/
def storeBytes (m : Cells) (a : Nat) : List Byte → Except Fault Cells
  | [] => .ok m
  | b :: t =>
    match memWrite m a b with
    | .ok m' => storeBytes m' (a + 1) t
    | .error f => .error f

/-- `n` byte reads at ascending addresses `a`, `a + 1`, ... (20_memory.md R47). -/
def loadBytes (m : Cells) (a : Nat) : Nat → Except Fault (List Byte)
  | 0 => .ok []
  | n + 1 =>
    match memRead m a with
    | .error f => .error f
    | .ok b =>
      match loadBytes m (a + 1) n with
      | .ok t => .ok (b :: t)
      | .error f => .error f

/-! ### Display -/

/-- An unlisted display cell is 0 (10_state.md R30). -/
def blankDisp (_ : Nat) : Byte := 0

/-- The canonical form of `disp` (10_state.md R15: 2048 cells). -/
abbrev Display.wf (d : Cells) : Prop := cellWf blankDisp (Config.width * Config.height) d

/-- The flat index of the cell in column `x` and row `y` (10_state.md R15, 43_display.md R142). -/
def cellIndex (x y : Nat) : Nat := y * Config.width + x

/-- The display cell `disp[y][x]`. -/
def pixel (s : State) (x y : Nat) : Byte := cellRead blankDisp s.disp (cellIndex x y)

end Sys2Proof.Machine
end

