-- ==== Sys2Proof/Machine/Operands.lean ====
section
/-! DEFINITION. The operand forms: registers and zero-extended immediates (30_encoding.md R63), the jump offset, glyph addresses, decimal digits, and key indexes. -/

namespace Sys2Proof.Machine

/-- VF is V[15] (10_state.md R11). -/
def vf : Nibble := 0xF

/-- `V[x]`: the 4-bit field used directly (30_encoding.md R63; 10_state.md R10: no register is special to read). -/
def State.reg (s : State) (x : Nibble) : Byte := s.v[x.toNat]'x.isLt

/-- NNN zero-extended to 16 bits (30_encoding.md R63). -/
def addr16 (nnn : Addr) : Half := nnn.setWidth 16

/-- A byte zero-extended to 16 bits. -/
def byte16 (b : Byte) : Half := b.setWidth 16

/-- X of a BNNN word, the top nibble of NNN (40_control_flow.md R88). -/
def offsetReg (nnn : Addr) : Nibble := nnn.extractLsb' 8 4

/-- 40_control_flow.md R88: the offset of JP_off, V[0] or V[X] by `cfg_jump`. -/
def jumpOffset (nnn : Addr) (s : State) : Byte :=
  match s.cfgJump with
  | .old => s.reg 0
  | .new => s.reg (offsetReg nnn)

/-- 40_control_flow.md R88: the exact sum NNN + offset, at most 0x10FE. -/
def jumpTarget (nnn : Addr) (off : Byte) : Half := BitVec.ofNat 16 (nnn.toNat + off.toNat)

/-- 42_index_memory.md R122: the address of the glyph of the low nibble. -/
def glyphAddr (b : Byte) : Half :=
  BitVec.ofNat 16 (Config.fontBase + (b &&& 0x0F).toNat * Config.glyphBytes)

/-- 42_index_memory.md R124: the three decimal digits of a byte, hundreds first. -/
def decimalDigits (b : Byte) : List Byte :=
  [BitVec.ofNat 8 (b.toNat / 100), BitVec.ofNat 8 (b.toNat / 10 % 10), BitVec.ofNat 8 (b.toNat % 10)]

/-- `V[0]`..`V[x]` in ascending order (42_index_memory.md R125). -/
def State.regsUpTo (s : State) (x : Nibble) : List Byte := s.v.toList.take (x.toNat + 1)

/-- 44_input_random_timer.md R153: the index is in range and its key is held. -/
def keyHeld (keys : Half) (index : Byte) : Bool :=
  decide (index.toNat ≤ 0x0F) && keys.getLsbD index.toNat

/-- 44_input_random_timer.md R154: the index is in range and its key is not held. -/
def keyNotHeld (keys : Half) (index : Byte) : Bool :=
  decide (index.toNat ≤ 0x0F) && !keys.getLsbD index.toNat

/-- 44_input_random_timer.md R156: the keys held before and not held now. -/
def released (prev now : Half) : Half := prev &&& ~~~now

/-- The number of the lowest set bit, if there is one (44_input_random_timer.md R156). -/
def lowestBit (m : Half) : Option Nat := (List.range 16).find? fun k => m.getLsbD k

end Sys2Proof.Machine
end

