-- ==== Sys2Proof/Machine/Ops.lean ====
section
/-! DEFINITION. The named operations the meanings share: writing registers and special registers, the call stack, the input ports, events, skipping, the outcome of an access that may fault, and taking AddrFault. -/

namespace Sys2Proof.Machine

/-! ### Writing one piece of state -/

/-- `V[x] <- b` (10_state.md R10: every register is writable). -/
def State.setReg (s : State) (x : Nibble) (b : Byte) : State := { s with v := s.v.set x.toNat b x.isLt }

/-- `VF <- b` (10_state.md R11). -/
def State.setVf (s : State) (b : Byte) : State := s.setReg vf b

/-- `PC <- a`. -/
def State.setPc (s : State) (a : Half) : State := { s with pc := a }

/-- `I <- a`. -/
def State.setI (s : State) (a : Half) : State := { s with i := a }

/-- `DT <- b`; the remainder is not touched (60_exceptions.md R206). -/
def State.setDt (s : State) (b : Byte) : State := { s with dt := b }

/-- `ST <- b`; the remainder and `snd_on` are not touched (60_exceptions.md R206). -/
def State.setSt (s : State) (b : Byte) : State := { s with st := b }

/-- Memory after an instruction's stores. -/
def State.setMem (s : State) (m : Cells) : State := { s with mem := m }

/-- The display after CLS, DRW or the alpha step. -/
def State.setDisp (s : State) (d : Cells) : State := { s with disp := d }

/-- `emit E` (46_cycle_driver.md R178). -/
def State.emit (s : State) (e : Event) : State := { s with out := s.out ++ [e] }

/-- Register writes in ascending order from register `k` on, one byte of the list each (42_index_memory.md R126). -/
def overwriteRegs (v : Vector Byte 16) (k : Nat) : List Byte → Vector Byte 16
  | [] => v
  | b :: t => overwriteRegs (v.setIfInBounds k b) (k + 1) t

/-- `V[0]`, `V[1]`, ... from a list, ascending (42_index_memory.md R126); registers beyond the list are unchanged. -/
def State.setRegs (s : State) (bs : List Byte) : State := { s with v := overwriteRegs s.v 0 bs }

/-! ### Skips -/

/-- 40_control_flow.md R87: `if c then PC <- PC +16 2`. -/
def State.skipIf (s : State) (c : Bool) : State := s.setPc (if c then s.pc + 2 else s.pc)

/-! ### The call stack -/

/-- 10_state.md R27: `Push`; `none` is the failure of a full stack, which changes nothing. -/
def push (s : State) (a : Half) : Option State :=
  if s.sp = 16 then none
  else some { s with stack := s.stack.setIfInBounds s.sp.toNat a, sp := s.sp + 1 }

/-- 10_state.md R28: `Pop`; `none` is the failure of an empty stack, which changes nothing; a popped slot keeps its content. -/
def pop (s : State) : Option (Half × State) :=
  if s.sp = 0 then none
  else some (s.stack.toList.getD (s.sp.toNat - 1) 0, { s with sp := s.sp - 1 })

/-- 60_exceptions.md R211: the cursor is beyond the stack, so `Push` and `Pop` have no meaning (log 8). -/
def State.stackBroken (s : State) : Bool := decide (Config.stackCap < s.sp.toNat)

/-! ### The input ports -/

/-- The sample the next poll of `keys_in` returns: the host's, or a free value (44_input_random_timer.md R152; log 1). -/
def State.nextKeys (s : State) : Half := s.keyTape.headD (Config.freeKeys s.draws)

/-- The state after one poll: the sample is used up and the `Poll` event emitted (46_cycle_driver.md R178). -/
def State.polled (s : State) : State :=
  { s with keyTape := s.keyTape.tail, draws := s.draws + 1, out := s.out ++ [.poll] }

/-- The sample the next `Rand8()` returns: the host's, or a free value (44_input_random_timer.md R150; log 2). -/
def State.nextRand (s : State) : Byte := s.randTape.headD (Config.freeRand s.draws)

/-- The state after one `Rand8()`: the sample is used up and the `Rand` event emitted. -/
def State.randed (s : State) : State :=
  { s with randTape := s.randTape.tail, draws := s.draws + 1, out := s.out ++ [.rand] }

/-! ### Accesses that may fault -/

/-- Go on with the result of an access, or break off with the fault it raised (20_memory.md R45). -/
def withAccess {α : Type} (r : Except Fault α) (k : α → Host.Outcome State Fault Refusal) :
    Host.Outcome State Fault Refusal :=
  match r with
  | .ok a => k a
  | .error f => .fault f

/-! ### Taking the exception -/

/-- The free register contents after AddrFault (log 7). -/
@[irreducible] def freeRegs (n : Nat) : Vector Byte 16 := Vector.ofFn fun k => Config.freeByte n k.val

/-- The free stack contents after AddrFault (log 7). -/
@[irreducible] def freeStack (n : Nat) : Vector Half 16 := Vector.ofFn fun k => Config.freeHalf n (16 + k.val)

/-- AddrFault entry (20_memory.md R45, 60_exceptions.md R193): `fault <- 1`, the event `AddrFault(addr)`, and every other piece of state
unspecified from here until reset, so each is a free value (log 7). Nothing is saved, there is no handler and no mode change. The
parameters are not state, and the host's inputs, the counter of free values and the events emitted so far are the model's own.
There is no return from it: the only way out is reset (60_exceptions.md R194; `hostReset` in Machine/Ports.lean). -/
def takeAddrFault (addr : Nat) (s : State) : State where
  v := freeRegs s.draws
  pc := Config.freeHalf s.draws 0
  i := Config.freeHalf s.draws 1
  mem := cellTabulate blankMem Config.memSize fun a => Config.freeByte s.draws (0x1000 + a)
  disp := cellTabulate blankDisp (Config.width * Config.height) fun c => Config.freeByte s.draws (0x2000 + c)
  stack := freeStack s.draws
  sp := (Config.freeHalf s.draws 2).setWidth 5
  dt := Config.freeByte s.draws 16
  st := Config.freeByte s.draws 17
  drem := Config.freeRemainder s.draws 0
  srem := Config.freeRemainder s.draws 1
  lastKeyState := Config.freeHalf s.draws 3
  sndOn := Config.freeBit s.draws 0
  fault := true
  cfgShift := if Config.freeBit s.draws 1 then .new else .old
  cfgJump := if Config.freeBit s.draws 2 then .new else .old
  cfgLdst := if Config.freeBit s.draws 3 then .new else .old
  fr := Config.freeHalf s.draws 4
  par := s.par
  keyTape := s.keyTape
  randTape := s.randTape
  draws := s.draws + 1
  out := s.out ++ [.addrFault addr]

/-- Take the fault an access raised. -/
def takeFault : Fault → State → State
  | .addrFault addr, s => takeAddrFault addr s

end Sys2Proof.Machine
end

