-- ==== Sys2Proof/Machine/Display.lean ====
section
/-! DEFINITION. Display instructions and the alpha decay of one cell (43_display.md). -/

namespace Sys2Proof.Machine

/-- `ON` (43_display.md, opening paragraph): the value of a lit cell. -/
def onValue (p : Config.Params) : Byte :=
  match p.pixelMode with
  | .binary => 1
  | .alpha => 255

/-- `OFFVAL` (43_display.md R141): what a lit cell becomes when a draw turns it off. -/
def offValue (p : Config.Params) : Byte :=
  match p.pixelMode with
  | .binary => 0
  | .alpha => 255 - p.fadeStep.val

/-- CLS (43_display.md R140): every cell 0, in both regimes. -/
def execCls (s : State) : Host.Outcome State Fault Refusal :=
  .next (s.setDisp [])

/-- 43_display.md R141, the body of the column loop: bit `7 - c` of the sprite byte onto column `x0 + c`; columns right of the edge are not
drawn. The second component says whether a lit cell has been turned off (collision). -/
def drawBit (p : Config.Params) (b : Byte) (x0 y : Nat) (acc : Cells × Bool) (c : Nat) : Cells × Bool :=
  if x0 + c < Config.width ∧ b.getLsbD (7 - c) = true then
    if cellRead blankDisp acc.1 (cellIndex (x0 + c) y) = onValue p then
      (cellWrite blankDisp acc.1 (cellIndex (x0 + c) y) (offValue p), true)
    else
      (cellWrite blankDisp acc.1 (cellIndex (x0 + c) y) (onValue p), acc.2)
  else acc

/-- 43_display.md R141: one sprite row, columns ascending. -/
def drawRow (p : Config.Params) (b : Byte) (x0 y : Nat) (acc : Cells × Bool) : Cells × Bool :=
  (List.range 8).foldl (drawBit p b x0 y) acc

/-- 43_display.md R141, the row loop: `n` rows from row `y` on, each reading its byte at `addr` when it is drawn. -/
def drawRows (p : Config.Params) (m : Cells) (x0 : Nat) : (n addr y : Nat) → Cells × Bool → Except Fault (Cells × Bool)
  | 0, _, _, acc => .ok acc
  | n + 1, addr, y, acc =>
    match memRead m addr with
    | .error f => .error f
    | .ok b => drawRows p m x0 n (addr + 1) (y + 1) (drawRow p b x0 y acc)

/-- The rows a draw reaches: those at or below the bottom edge are neither read nor drawn (43_display.md R141: min(N, 32 - y0)). -/
def rowsDrawn (n : Nibble) (y0 : Nat) : Nat := min n.toNat (Config.height - y0)

/-- DRW Vx, Vy, n (43_display.md R141): VF is cleared before the coordinates are read. -/
def execDrw (x y n : Nibble) (s : State) : Host.Outcome State Fault Refusal :=
  let t := s.setVf 0
  let x0 := (t.reg x).toNat % Config.width
  let y0 := (t.reg y).toNat % Config.height
  withAccess (drawRows t.par t.mem x0 (rowsDrawn n y0) t.i.toNat y0 (t.disp, false)) fun r =>
    .next ((t.setDisp r.1).setVf (flagByte r.2))

/-- 43_display.md R143: one cell of the alpha decay; 0 and 255 are left alone, the rest falls by `FADE_STEP` and stops at 0. -/
def fadeCell (fadeStep : Byte) (c : Byte) : Byte :=
  if 0 < c.toNat ∧ c.toNat < 255 then BitVec.ofNat 8 (c.toNat - fadeStep.toNat) else c

end Sys2Proof.Machine
end

