-- ==== Sys2Proof/Machine/Cycle.lean ====
section
/-! DEFINITION. The parts of one cycle around the instruction (46_cycle_driver.md R170): timer decay, audio edge, alpha decay, fetch, key refresh, and the end of a cycle that faulted. -/

namespace Sys2Proof.Machine

/-- 60_exceptions.md R200: `60 / FR` ticks per cycle, an exact rational. -/
def ticksPerCycle (fr : Half) : Rat := mkRat Config.timerHz fr.toNat

/-- 60_exceptions.md R201: `Decay(t, r)`. A stopped timer does not accumulate; the threshold is strict; the timer stops at 0. -/
def decay (fr : Half) (t : Byte) (r : Rat) : Byte × Rat :=
  if t = 0 then (t, r)
  else if 1 < r + ticksPerCycle fr then
    (BitVec.ofNat 8 (t.toNat - (r + ticksPerCycle fr).floor.toNat),
      r + ticksPerCycle fr - ((r + ticksPerCycle fr).floor : Rat))
  else (t, r + ticksPerCycle fr)

/-- Steps 1 and 2 of the cycle (46_cycle_driver.md R170). -/
def decayTimers (s : State) : State :=
  { s with
    dt := (decay s.fr s.dt s.drem).1
    drem := (decay s.fr s.dt s.drem).2
    st := (decay s.fr s.st s.srem).1
    srem := (decay s.fr s.st s.srem).2 }

/-- 60_exceptions.md R205: the level the audio edge detector compares. -/
def soundLevel (s : State) : Bool := decide (0 < s.st.toNat)

/-- Step 3 of the cycle (60_exceptions.md R205). -/
def audioEdge (s : State) : State :=
  { s with
    sndOn := soundLevel s
    out := if soundLevel s = s.sndOn then s.out else s.out ++ [.audioToggle] }

/-- Step 4 of the cycle (43_display.md R143): there is no such step in the binary regime. -/
def alphaDecay (s : State) : State :=
  match s.par.pixelMode with
  | .binary => s
  | .alpha => s.setDisp (cellMap (fadeCell s.par.fadeStep.val) s.disp)

/-- The events of the previous step are gone when a step begins (log 3). -/
def clearOut (s : State) : State := { s with out := [] }

/-- Steps 1 to 4 of the cycle. -/
def beforeFetch (s : State) : State := alphaDecay (audioEdge (decayTimers (clearOut s)))

/-- Step 5 of the cycle (20_memory.md R44): the big-endian word at PC, and `PC <- PC +16 2`. -/
def fetch (s : State) : Except Fault (Half × State) :=
  match memRead2 s.mem s.pc.toNat with
  | .ok w => .ok (w, s.setPc (s.pc + 2))
  | .error f => .error f

/-- Step 7 of the cycle (46_cycle_driver.md R175): `lastKeyState <- PollKeys()`. -/
def refreshKeys (s : State) : State := { s.polled with lastKeyState := s.nextKeys }

/-- The end of the cycle: the refresh after an instruction that completed; the fault taken, and no refresh, after one that raised
AddrFault (20_memory.md R45). `s` is the state the instruction started from: the instructions that can fault emit nothing before they do. -/
def endCycle (s : State) : Host.Outcome State Fault Refusal → Host.Outcome State Fault Refusal
  | .next t => .next (refreshKeys t)
  | .fault f => .next (takeFault f s)
  | .refused r => .refused r

/-- Store an instruction word where the next step fetches it, high byte first, and set what that fetch needs: the core not faulted, PC and
FR in their ranges (log 13). -/
def placeWord (w : Half) (s : State) : State :=
  let a : Half := if s.pc.toNat < 0xFFF then s.pc else 0x200
  { s with
    pc := a
    fault := false
    fr := if s.fr = 0 then 60 else s.fr
    mem := cellWrite blankMem (cellWrite blankMem s.mem a.toNat (w.extractLsb' 8 8)) (a.toNat + 1) (w.extractLsb' 0 8) }

end Sys2Proof.Machine
end

