-- ==== Sys2Proof/Syntax.lean ====
section
/-! DEFINITION. The instructions: one constructor per row of spec/opcode_table.json, with the operand fields of 30_encoding.md R61, R62. -/

namespace Sys2Proof

/-- One constructor per row of the opcode map (30_encoding.md R65) and one for the unassigned words (R66).
The rows with ignored bits (R68) carry those bits in `ign`, and the no-op carries its word, so that no bit of a word is lost (log 15);
no meaning reads them. -/
inductive Instr where
  /-- `0_E0` clear the screen; nibble 1 ignored. -/
  | cls (ign : Nibble)
  /-- `0_EE` return; nibble 1 ignored. -/
  | ret (ign : Nibble)
  /-- `1NNN` jump. -/
  | jp (nnn : Addr)
  /-- `2NNN` call. -/
  | call (nnn : Addr)
  /-- `3XNN` skip if register equals immediate. -/
  | seImm (x : Nibble) (nn : Byte)
  /-- `4XNN` skip if register differs from immediate. -/
  | sneImm (x : Nibble) (nn : Byte)
  /-- `5XY_` skip if registers are equal; nibble 3 ignored. -/
  | seReg (x y ign : Nibble)
  /-- `6XNN` load immediate. -/
  | ldImm (x : Nibble) (nn : Byte)
  /-- `7XNN` add immediate. -/
  | addImm (x : Nibble) (nn : Byte)
  /-- `8XY0` assign. -/
  | ldReg (x y : Nibble)
  /-- `8XY1` or. -/
  | orReg (x y : Nibble)
  /-- `8XY2` and. -/
  | andReg (x y : Nibble)
  /-- `8XY3` exclusive or. -/
  | xorReg (x y : Nibble)
  /-- `8XY4` add with carry out. -/
  | addReg (x y : Nibble)
  /-- `8XY5` X minus Y. -/
  | subReg (x y : Nibble)
  /-- `8XY6` shift right by one. -/
  | shr (x y : Nibble)
  /-- `8XY7` Y minus X. -/
  | subnReg (x y : Nibble)
  /-- `8XYE` shift left by one. -/
  | shl (x y : Nibble)
  /-- `9XY_` skip if registers differ; nibble 3 ignored. -/
  | sneReg (x y ign : Nibble)
  /-- `ANNN` set the index register. -/
  | ldI (nnn : Addr)
  /-- `BNNN` jump with offset. -/
  | jpOff (nnn : Addr)
  /-- `CXNN` random byte under a mask. -/
  | rnd (x : Nibble) (nn : Byte)
  /-- `DXYN` draw. -/
  | drw (x y n : Nibble)
  /-- `EX9E` skip if key held. -/
  | skp (x : Nibble)
  /-- `EXA1` skip if key not held. -/
  | sknp (x : Nibble)
  /-- `FX07` read the delay timer. -/
  | ldVxDt (x : Nibble)
  /-- `FX0A` wait for a key release. -/
  | ldVxK (x : Nibble)
  /-- `FX15` set the delay timer. -/
  | ldDtVx (x : Nibble)
  /-- `FX18` set the sound timer. -/
  | ldStVx (x : Nibble)
  /-- `FX1E` add to the index register. -/
  | addI (x : Nibble)
  /-- `FX29` point the index register at a glyph. -/
  | ldF (x : Nibble)
  /-- `FX33` store decimal digits. -/
  | ldB (x : Nibble)
  /-- `FX55` bulk store. -/
  | stRegs (x : Nibble)
  /-- `FX65` bulk load. -/
  | ldRegs (x : Nibble)
  /-- An unassigned word: a no-op (30_encoding.md R66, R67). -/
  | nop (word : Half)
deriving DecidableEq, Repr

/-- The row's mnemonic, as spec/opcode_table.json spells it. -/
def Instr.mnemonic : Instr → String
  | .cls _ => "CLS" | .ret _ => "RET" | .jp _ => "JP" | .call _ => "CALL"
  | .seImm _ _ => "SE_imm" | .sneImm _ _ => "SNE_imm" | .seReg _ _ _ => "SE_reg"
  | .ldImm _ _ => "LD_imm" | .addImm _ _ => "ADD_imm"
  | .ldReg _ _ => "LD_reg" | .orReg _ _ => "OR" | .andReg _ _ => "AND" | .xorReg _ _ => "XOR"
  | .addReg _ _ => "ADD_reg" | .subReg _ _ => "SUB" | .shr _ _ => "SHR"
  | .subnReg _ _ => "SUBN" | .shl _ _ => "SHL"
  | .sneReg _ _ _ => "SNE_reg" | .ldI _ => "LD_I" | .jpOff _ => "JP_off"
  | .rnd _ _ => "RND" | .drw _ _ _ => "DRW" | .skp _ => "SKP" | .sknp _ => "SKNP"
  | .ldVxDt _ => "LD_Vx_DT" | .ldVxK _ => "LD_Vx_K" | .ldDtVx _ => "LD_DT_Vx"
  | .ldStVx _ => "LD_ST_Vx" | .addI _ => "ADD_I" | .ldF _ => "LD_F" | .ldB _ => "LD_B"
  | .stRegs _ => "ST_regs" | .ldRegs _ => "LD_regs" | .nop _ => "NOP_unassigned"

end Sys2Proof
end

