-- ==== Sys2Proof/WellFormed.lean ====
section
/-! DEFINITION. Which terms of `Instr` stand for an instruction of the hardware: every operand field has exactly its width by its type, so the one check left is that a no-op carries an unassigned word (30_encoding.md R67). -/

namespace Sys2Proof

/-- 30_encoding.md R67, the table of unassigned words, read off the number of the word (independently of the decoder). -/
def unassigned (w : Half) : Bool :=
  let op := w.toNat / 4096
  let n := w.toNat % 16
  let nn := w.toNat % 256
  match op with
  | 0x0 => !([0xE0, 0xEE].contains nn)
  | 0x8 => [0x8, 0x9, 0xA, 0xB, 0xC, 0xD, 0xF].contains n
  | 0xE => !([0x9E, 0xA1].contains nn)
  | 0xF => !([0x07, 0x0A, 0x15, 0x18, 0x1E, 0x29, 0x33, 0x55, 0x65].contains nn)
  | _ => false

/-- A well-formed instruction. Operand ranges are the operand types; a no-op must carry an unassigned word. -/
def Instr.wellFormed : Instr → Bool
  | .nop w => unassigned w
  | .cls _ | .ret _ | .jp _ | .call _ | .seImm _ _ | .sneImm _ _ | .seReg _ _ _
  | .ldImm _ _ | .addImm _ _ | .ldReg _ _ | .orReg _ _ | .andReg _ _ | .xorReg _ _
  | .addReg _ _ | .subReg _ _ | .shr _ _ | .subnReg _ _ | .shl _ _ | .sneReg _ _ _
  | .ldI _ | .jpOff _ | .rnd _ _ | .drw _ _ _ | .skp _ | .sknp _ | .ldVxDt _ | .ldVxK _
  | .ldDtVx _ | .ldStVx _ | .addI _ | .ldF _ | .ldB _ | .stRegs _ | .ldRegs _ => true

end Sys2Proof
end

