-- ==== Sys2Proof/Decode.lean ====
section
/-! DEFINITION. The decoder (30_encoding.md R64), total on words and on byte lists, the opcode map of R65 as data, and the encoder written from R65. -/

namespace Sys2Proof

/-- 30_encoding.md R61: nibble 0, `ins[15:12]`. -/
def opOf (w : Half) : Nibble := w.extractLsb' 12 4
/-- 30_encoding.md R61: X, nibble 1, `ins[11:8]`. -/
def xOf (w : Half) : Nibble := w.extractLsb' 8 4
/-- 30_encoding.md R61: Y, nibble 2, `ins[7:4]`. -/
def yOf (w : Half) : Nibble := w.extractLsb' 4 4
/-- 30_encoding.md R61: N, nibble 3, `ins[3:0]`. -/
def nOf (w : Half) : Nibble := w.extractLsb' 0 4
/-- 30_encoding.md R61: NN, `ins[7:0]`. -/
def nnOf (w : Half) : Byte := w.extractLsb' 0 8
/-- 30_encoding.md R61: NNN, `ins[11:0]`. -/
def nnnOf (w : Half) : Addr := w.extractLsb' 0 12

/-- 30_encoding.md R64, family 0x0: keyed on NN, nibble 1 ignored. -/
def decode0 (w : Half) : Instr :=
  match (nnOf w).toNat with
  | 0xE0 => .cls (xOf w)
  | 0xEE => .ret (xOf w)
  | _ => .nop w

/-- 30_encoding.md R64, family 0x8: keyed on N. -/
def decode8 (w : Half) : Instr :=
  match (nOf w).toNat with
  | 0x0 => .ldReg (xOf w) (yOf w)
  | 0x1 => .orReg (xOf w) (yOf w)
  | 0x2 => .andReg (xOf w) (yOf w)
  | 0x3 => .xorReg (xOf w) (yOf w)
  | 0x4 => .addReg (xOf w) (yOf w)
  | 0x5 => .subReg (xOf w) (yOf w)
  | 0x6 => .shr (xOf w) (yOf w)
  | 0x7 => .subnReg (xOf w) (yOf w)
  | 0xE => .shl (xOf w) (yOf w)
  | _ => .nop w

/-- 30_encoding.md R64, family 0xE: keyed on NN. -/
def decodeE (w : Half) : Instr :=
  match (nnOf w).toNat with
  | 0x9E => .skp (xOf w)
  | 0xA1 => .sknp (xOf w)
  | _ => .nop w

/-- 30_encoding.md R64, family 0xF: keyed on NN. -/
def decodeF (w : Half) : Instr :=
  match (nnOf w).toNat with
  | 0x07 => .ldVxDt (xOf w)
  | 0x0A => .ldVxK (xOf w)
  | 0x15 => .ldDtVx (xOf w)
  | 0x18 => .ldStVx (xOf w)
  | 0x1E => .addI (xOf w)
  | 0x29 => .ldF (xOf w)
  | 0x33 => .ldB (xOf w)
  | 0x55 => .stRegs (xOf w)
  | 0x65 => .ldRegs (xOf w)
  | _ => .nop w

/-- 30_encoding.md R64: the two-level switch. Total: every word decodes, an unassigned one to the no-op (R66). -/
def decode (w : Half) : Instr :=
  match (opOf w).toNat with
  | 0x0 => decode0 w
  | 0x1 => .jp (nnnOf w)
  | 0x2 => .call (nnnOf w)
  | 0x3 => .seImm (xOf w) (nnOf w)
  | 0x4 => .sneImm (xOf w) (nnOf w)
  | 0x5 => .seReg (xOf w) (yOf w) (nOf w)
  | 0x6 => .ldImm (xOf w) (nnOf w)
  | 0x7 => .addImm (xOf w) (nnOf w)
  | 0x8 => decode8 w
  | 0x9 => .sneReg (xOf w) (yOf w) (nOf w)
  | 0xA => .ldI (nnnOf w)
  | 0xB => .jpOff (nnnOf w)
  | 0xC => .rnd (xOf w) (nnOf w)
  | 0xD => .drw (xOf w) (yOf w) (nOf w)
  | 0xE => decodeE w
  | _ => decodeF w

/-- Why a list of bytes holds no instruction: there is one reason, since every word decodes (30_encoding.md R60, R64). -/
inductive DecodeError where
  /-- Fewer than the two bytes every instruction has (30_encoding.md R60). -/
  | truncated
deriving DecidableEq, Repr

/-- Decode the instruction at the head of a list of bytes, most significant byte first (20_memory.md R43), and return the bytes after it. -/
def decodeBytes : List Byte → Except DecodeError (Instr × List Byte)
  | hi :: lo :: rest => .ok (decode (hi ++ lo), rest)
  | _ => .error .truncated

/-- 30_encoding.md R62, format `NNN`: the op nibble and a 12-bit address. -/
def wordNNN (op : Nibble) (nnn : Addr) : Half := op ++ nnn
/-- 30_encoding.md R62, formats `XNN`, `X` and `FIX`: the op nibble, nibble 1 and the low byte. -/
def wordXNN (op x : Nibble) (nn : Byte) : Half := op ++ x ++ nn
/-- 30_encoding.md R62, formats `XYN` and `XY`: four nibbles. -/
def wordXYN (op x y n : Nibble) : Half := op ++ x ++ y ++ n

/-- The encoder, from the opcode map of 30_encoding.md R65: formats NNN, XNN (X and FIX with their sub-opcode as NN) and XYN (XY with its sub-opcode as N). -/
def encode : Instr → Half
  | .cls ign => wordXNN 0x0 ign 0xE0
  | .ret ign => wordXNN 0x0 ign 0xEE
  | .jp nnn => wordNNN 0x1 nnn
  | .call nnn => wordNNN 0x2 nnn
  | .seImm x nn => wordXNN 0x3 x nn
  | .sneImm x nn => wordXNN 0x4 x nn
  | .seReg x y ign => wordXYN 0x5 x y ign
  | .ldImm x nn => wordXNN 0x6 x nn
  | .addImm x nn => wordXNN 0x7 x nn
  | .ldReg x y => wordXYN 0x8 x y 0x0
  | .orReg x y => wordXYN 0x8 x y 0x1
  | .andReg x y => wordXYN 0x8 x y 0x2
  | .xorReg x y => wordXYN 0x8 x y 0x3
  | .addReg x y => wordXYN 0x8 x y 0x4
  | .subReg x y => wordXYN 0x8 x y 0x5
  | .shr x y => wordXYN 0x8 x y 0x6
  | .subnReg x y => wordXYN 0x8 x y 0x7
  | .shl x y => wordXYN 0x8 x y 0xE
  | .sneReg x y ign => wordXYN 0x9 x y ign
  | .ldI nnn => wordNNN 0xA nnn
  | .jpOff nnn => wordNNN 0xB nnn
  | .rnd x nn => wordXNN 0xC x nn
  | .drw x y n => wordXYN 0xD x y n
  | .skp x => wordXNN 0xE x 0x9E
  | .sknp x => wordXNN 0xE x 0xA1
  | .ldVxDt x => wordXNN 0xF x 0x07
  | .ldVxK x => wordXNN 0xF x 0x0A
  | .ldDtVx x => wordXNN 0xF x 0x15
  | .ldStVx x => wordXNN 0xF x 0x18
  | .addI x => wordXNN 0xF x 0x1E
  | .ldF x => wordXNN 0xF x 0x29
  | .ldB x => wordXNN 0xF x 0x33
  | .stRegs x => wordXNN 0xF x 0x55
  | .ldRegs x => wordXNN 0xF x 0x65
  | .nop w => w

/-- The two bytes of an instruction in memory order (20_memory.md R43). -/
def encodeBytes (i : Instr) : List Byte :=
  [(encode i).extractLsb' 8 8, (encode i).extractLsb' 0 8]

/-- The opcode map of 30_encoding.md R65: match, mask, mnemonic, one entry per row but the catch-all. -/
def opcodeMap : List (Half × Half × String) :=
  [(0x00E0, 0xF0FF, "CLS"), (0x00EE, 0xF0FF, "RET"), (0x1000, 0xF000, "JP"), (0x2000, 0xF000, "CALL"),
   (0x3000, 0xF000, "SE_imm"), (0x4000, 0xF000, "SNE_imm"), (0x5000, 0xF000, "SE_reg"),
   (0x6000, 0xF000, "LD_imm"), (0x7000, 0xF000, "ADD_imm"), (0x8000, 0xF00F, "LD_reg"),
   (0x8001, 0xF00F, "OR"), (0x8002, 0xF00F, "AND"), (0x8003, 0xF00F, "XOR"),
   (0x8004, 0xF00F, "ADD_reg"), (0x8005, 0xF00F, "SUB"), (0x8006, 0xF00F, "SHR"),
   (0x8007, 0xF00F, "SUBN"), (0x800E, 0xF00F, "SHL")] ++
  [(0x9000, 0xF000, "SNE_reg"), (0xA000, 0xF000, "LD_I"), (0xB000, 0xF000, "JP_off"),
   (0xC000, 0xF000, "RND"), (0xD000, 0xF000, "DRW"), (0xE09E, 0xF0FF, "SKP"), (0xE0A1, 0xF0FF, "SKNP"),
   (0xF007, 0xF0FF, "LD_Vx_DT"), (0xF00A, 0xF0FF, "LD_Vx_K"), (0xF015, 0xF0FF, "LD_DT_Vx"),
   (0xF018, 0xF0FF, "LD_ST_Vx"), (0xF01E, 0xF0FF, "ADD_I"), (0xF029, 0xF0FF, "LD_F"),
   (0xF033, 0xF0FF, "LD_B"), (0xF055, 0xF0FF, "ST_regs"), (0xF065, 0xF0FF, "LD_regs")]

/-- The instruction word the opcode table's numbering stands for: the low `nbits` bits of `w`, the rest 0; a row is one 16-bit word (log 16). -/
def tableWord (nbits w : Nat) : Half := BitVec.ofNat 16 (w % 2 ^ nbits)

/-- What the decoder reads from an instruction whose bits are `w` in the opcode table's numbering: the word laid out high byte first, as the hardware stores it, and given to `decodeBytes`. -/
def decodeTableWord (nbits w : Nat) : Option Instr :=
  let ins := tableWord nbits w
  match decodeBytes [ins.extractLsb' 8 8, ins.extractLsb' 0 8] with
  | .ok (i, _) => some i
  | .error _ => none

end Sys2Proof
end

