-- ==== Sys2Proof/Machine/Alu.lean ====
section
/-! DEFINITION. Register load, logic, arithmetic and shift instructions (41_alu.md). -/

namespace Sys2Proof.Machine

/-- LD Vx, nn (41_alu.md R100). -/
def execLdImm (x : Nibble) (nn : Byte) (s : State) : Host.Outcome State Fault Refusal :=
  .next (s.setReg x nn)

/-- ADD Vx, nn (41_alu.md R101): modulo 256, no carry recorded. -/
def execAddImm (x : Nibble) (nn : Byte) (s : State) : Host.Outcome State Fault Refusal :=
  .next (s.setReg x (s.reg x + nn))

/-- LD Vx, Vy (41_alu.md R102). -/
def execLdReg (x y : Nibble) (s : State) : Host.Outcome State Fault Refusal :=
  .next (s.setReg x (s.reg y))

/-- OR Vx, Vy (41_alu.md R103): VF is not written. -/
def execOr (x y : Nibble) (s : State) : Host.Outcome State Fault Refusal :=
  .next (s.setReg x (s.reg x ||| s.reg y))

/-- AND Vx, Vy (41_alu.md R104): VF is not written. -/
def execAnd (x y : Nibble) (s : State) : Host.Outcome State Fault Refusal :=
  .next (s.setReg x (s.reg x &&& s.reg y))

/-- XOR Vx, Vy (41_alu.md R105): VF is not written. -/
def execXor (x y : Nibble) (s : State) : Host.Outcome State Fault Refusal :=
  .next (s.setReg x (s.reg x ^^^ s.reg y))

/-- ADD Vx, Vy (41_alu.md R106): operands latched, the carry written first, the sum second. -/
def execAddReg (x y : Nibble) (s : State) : Host.Outcome State Fault Refusal :=
  .next ((s.setVf (carryFlag (s.reg x) (s.reg y))).setReg x (s.reg x + s.reg y))

/-- SUB Vx, Vy (41_alu.md R107): X minus Y; operands latched, the flag first, the difference second. -/
def execSub (x y : Nibble) (s : State) : Host.Outcome State Fault Refusal :=
  .next ((s.setVf (greaterFlag (s.reg x) (s.reg y))).setReg x (s.reg x - s.reg y))

/-- SUBN Vx, Vy (41_alu.md R109): Y minus X. -/
def execSubn (x y : Nibble) (s : State) : Host.Outcome State Fault Refusal :=
  .next ((s.setVf (greaterFlag (s.reg y) (s.reg x))).setReg x (s.reg y - s.reg x))

/-- Step 1 of the shifts (41_alu.md R108, R110): with `cfg_shift = old` the target is first overwritten with V[Y]. -/
def shiftCopy (x y : Nibble) (s : State) : State :=
  match s.cfgShift with
  | .old => s.setReg x (s.reg y)
  | .new => s

/-- Steps 2 and 3 of the shifts: VF from V[X], then V[X] from V[X] read again (41_alu.md R108, R110). -/
def shiftInPlace (flag shift : Byte → Byte) (x : Nibble) (s : State) : State :=
  let t := s.setVf (flag (s.reg x))
  t.setReg x (shift (t.reg x))

/-- SHR Vx{, Vy} (41_alu.md R108). -/
def execShr (x y : Nibble) (s : State) : Host.Outcome State Fault Refusal :=
  .next (shiftInPlace lowBitFlag (fun b => b >>> 1) x (shiftCopy x y s))

/-- SHL Vx{, Vy} (41_alu.md R110). -/
def execShl (x y : Nibble) (s : State) : Host.Outcome State Fault Refusal :=
  .next (shiftInPlace highBitFlag (fun b => b <<< 1) x (shiftCopy x y s))

end Sys2Proof.Machine
end

