-- ==== Sys2Proof/Machine/Control.lean ====
section
/-! DEFINITION. The control-transfer instructions (40_control_flow.md). The state a meaning receives is the one after fetch: PC is the instruction's address plus 2 (20_memory.md R44). -/

namespace Sys2Proof.Machine

/-- RET (40_control_flow.md R80): pop into PC; on an empty stack nothing changes but the diagnostic event. -/
def execRet (s : State) : Host.Outcome State Fault Refusal :=
  if s.stackBroken then .refused .stackCursorOutOfRange
  else .next (match pop s with
    | some (a, t) => t.setPc a
    | none => s.emit .stackUnderflow)

/-- JP nnn (40_control_flow.md R81). -/
def execJp (nnn : Addr) (s : State) : Host.Outcome State Fault Refusal :=
  .next (s.setPc (addr16 nnn))

/-- CALL nnn (40_control_flow.md R82): push the address after the CALL and jump; on a full stack the jump is still taken. -/
def execCall (nnn : Addr) (s : State) : Host.Outcome State Fault Refusal :=
  if s.stackBroken then .refused .stackCursorOutOfRange
  else .next (((push s s.pc).getD (s.emit .stackOverflow)).setPc (addr16 nnn))

/-- SE Vx, nn (40_control_flow.md R83). -/
def execSeImm (x : Nibble) (nn : Byte) (s : State) : Host.Outcome State Fault Refusal :=
  .next (s.skipIf (s.reg x == nn))

/-- SNE Vx, nn (40_control_flow.md R84). -/
def execSneImm (x : Nibble) (nn : Byte) (s : State) : Host.Outcome State Fault Refusal :=
  .next (s.skipIf (s.reg x != nn))

/-- SE Vx, Vy (40_control_flow.md R85). -/
def execSeReg (x y : Nibble) (s : State) : Host.Outcome State Fault Refusal :=
  .next (s.skipIf (s.reg x == s.reg y))

/-- SNE Vx, Vy (40_control_flow.md R86). -/
def execSneReg (x y : Nibble) (s : State) : Host.Outcome State Fault Refusal :=
  .next (s.skipIf (s.reg x != s.reg y))

/-- JP V0, nnn (40_control_flow.md R88): the exact sum, not reduced to 12 bits. -/
def execJpOff (nnn : Addr) (s : State) : Host.Outcome State Fault Refusal :=
  .next (s.setPc (jumpTarget nnn (jumpOffset nnn s)))

/-- An unassigned word (30_encoding.md R66): nothing beyond the cycle around it. -/
def execNop (s : State) : Host.Outcome State Fault Refusal :=
  .next s

end Sys2Proof.Machine
end

