-- ==== Sys2Proof/Machine/Index.lean ====
section
/-! DEFINITION. Index-register, load and store instructions (42_index_memory.md). -/

namespace Sys2Proof.Machine

/-- LD I, nnn (42_index_memory.md R120). -/
def execLdI (nnn : Addr) (s : State) : Host.Outcome State Fault Refusal :=
  .next (s.setI (addr16 nnn))

/-- ADD I, Vx (42_index_memory.md R121): modulo 65536; VF is set to 1 when the new I exceeds 0x1000 and is not written otherwise. -/
def execAddI (x : Nibble) (s : State) : Host.Outcome State Fault Refusal :=
  let t := s.setI (s.i + byte16 (s.reg x))
  .next (if indexExceeds t.i then t.setVf 1 else t)

/-- LD F, Vx (42_index_memory.md R122). -/
def execLdF (x : Nibble) (s : State) : Host.Outcome State Fault Refusal :=
  .next (s.setI (glyphAddr (s.reg x)))

/-- LD B, Vx (42_index_memory.md R124). -/
def execLdB (x : Nibble) (s : State) : Host.Outcome State Fault Refusal :=
  withAccess (storeBytes s.mem s.i.toNat (decimalDigits (s.reg x))) fun m => .next (s.setMem m)

/-- The side effect of the bulk transfers (42_index_memory.md R125, R126): with `cfg_ldst = old`, `I <- I +16 (X + 1)`. -/
def advanceIndex (x : Nibble) (s : State) : State :=
  match s.cfgLdst with
  | .old => s.setI (s.i + BitVec.ofNat 16 (x.toNat + 1))
  | .new => s

/-- LD [I], Vx (42_index_memory.md R125). -/
def execStRegs (x : Nibble) (s : State) : Host.Outcome State Fault Refusal :=
  withAccess (storeBytes s.mem s.i.toNat (s.regsUpTo x)) fun m => .next (advanceIndex x (s.setMem m))

/-- LD Vx, [I] (42_index_memory.md R126). -/
def execLdRegs (x : Nibble) (s : State) : Host.Outcome State Fault Refusal :=
  withAccess (loadBytes s.mem s.i.toNat (x.toNat + 1)) fun bs => .next (advanceIndex x (s.setRegs bs))

end Sys2Proof.Machine
end

