-- ==== Sys2Proof/Machine/Input.lean ====
section
/-! DEFINITION. Random, keypad and timer instructions (44_input_random_timer.md). -/

namespace Sys2Proof.Machine

/-- RND Vx, nn (44_input_random_timer.md R150): one sample of `rand_in` under a mask. -/
def execRnd (x : Nibble) (nn : Byte) (s : State) : Host.Outcome State Fault Refusal :=
  .next (s.randed.setReg x (s.nextRand &&& nn))

/-- SKP Vx (44_input_random_timer.md R153): the poll happens whatever V[X] is. -/
def execSkp (x : Nibble) (s : State) : Host.Outcome State Fault Refusal :=
  .next (s.polled.skipIf (keyHeld s.nextKeys (s.reg x)))

/-- SKNP Vx (44_input_random_timer.md R154): V[X] above 0x0F does not skip (90_conflicts.md C2). -/
def execSknp (x : Nibble) (s : State) : Host.Outcome State Fault Refusal :=
  .next (s.polled.skipIf (keyNotHeld s.nextKeys (s.reg x)))

/-- The end of LD Vx, K that does not wait (44_input_random_timer.md R156): the lowest released key, if one was released, goes to V[X];
with none released V[X] is not written (log 12). -/
def takeRelease (x : Nibble) (rel : Half) (s : State) : State :=
  match lowestBit rel with
  | some k => s.setReg x (BitVec.ofNat 8 k)
  | none => s

/-- LD Vx, K (44_input_random_timer.md R156): waits by stepping PC back onto itself until a key is released. -/
def execLdVxK (x : Nibble) (s : State) : Host.Outcome State Fault Refusal :=
  .next (if s.lastKeyState = 0 ∨ s.lastKeyState = s.nextKeys then s.polled.setPc (s.pc - 2)
    else takeRelease x (released s.lastKeyState s.nextKeys) s.polled)

/-- LD Vx, DT (44_input_random_timer.md R157): DT after this cycle's decay. -/
def execLdVxDt (x : Nibble) (s : State) : Host.Outcome State Fault Refusal :=
  .next (s.setReg x s.dt)

/-- LD DT, Vx (44_input_random_timer.md R158): the remainder is not changed. -/
def execLdDtVx (x : Nibble) (s : State) : Host.Outcome State Fault Refusal :=
  .next (s.setDt (s.reg x))

/-- LD ST, Vx (44_input_random_timer.md R159): the remainder and `snd_on` are not changed. -/
def execLdStVx (x : Nibble) (s : State) : Host.Outcome State Fault Refusal :=
  .next (s.setSt (s.reg x))

end Sys2Proof.Machine
end

