-- ==== Sys2Proof/Machine/Step.lean ====
section
/-! DEFINITION. One activation of `step` (46_cycle_driver.md R170), and how a test places the next instruction. -/

namespace Sys2Proof.Machine

/-- 46_cycle_driver.md R170: one cycle. A faulted core does nothing and emits nothing (R171). A frame rate of 0 is no state of the
hardware (10_state.md R24, R31) and is refused by name (log 9). AddrFault in the fetch or in the instruction is taken as a next state. -/
def step (s : State) : Host.Outcome State Fault Refusal :=
  if s.fault then .next (clearOut s)
  else if s.fr = 0 then .refused .frameRateZero
  else
    match fetch (beforeFetch s) with
    | .error f => .next (takeFault f (beforeFetch s))
    | .ok (w, t) => endCycle t (exec (decode w) t)

/-- The state with the opcode table's word placed where `step` fetches its next instruction (log 13, 16). -/
def State.withFetchWord (s : State) (nbits w : Nat) : State := placeWord (tableWord nbits w) s

end Sys2Proof.Machine
end

