-- ==== Sys2Proof/Machine/Ports.lean ====
section
/-! DEFINITION. The host's moves, which happen only between cycles (70_reset_and_hazards.md R230; log 14), and what the host can read. -/

namespace Sys2Proof.Machine

/-- Byte writes at ascending addresses of memory that exists. -/
def fillBytes (m : Cells) (a : Nat) : List Byte → Cells
  | [] => m
  | b :: t => fillBytes (cellWrite blankMem m a b) (a + 1) t

/-- 70_reset_and_hazards.md R220, 10_state.md R30: the state after `reset` of an instance with these parameters; its FONT goes to 0x050..0x09F. -/
def State.resetWith (p : Config.Params) : State :=
  { State.reset with par := p, mem := fillBytes [] Config.fontBase p.font.toList }

/-- `reset` as a host's move: every piece of the spec's state, whatever it was; the parameters are fixed, and the host's inputs stay the host's. -/
def hostReset (s : State) : State :=
  { State.resetWith s.par with keyTape := s.keyTape, randTape := s.randTape, draws := s.draws }

/-- `load` (70_reset_and_hazards.md R225): the program's bytes from 0x200 on and PC, nothing else. -/
def hostLoad (bytes : List Byte) (s : State) : Host.Outcome State Fault Refusal :=
  if Config.maxProgram < bytes.length then .refused .loadTooLong
  else if s.fault then .refused .loadWhileFaulted
  else .next ((s.setMem (fillBytes s.mem Config.progBase bytes)).setPc (BitVec.ofNat 16 Config.progBase))

/-- The toggle a `cfg_write` names (70_reset_and_hazards.md R226). -/
inductive ConfigField where
  | shift
  | jump
  | ldst
deriving DecidableEq, Repr

/-- `cfg_write` (70_reset_and_hazards.md R226). -/
def hostCfgWrite (f : ConfigField) (t : Toggle) (s : State) : State :=
  match f with
  | .shift => { s with cfgShift := t }
  | .jump => { s with cfgJump := t }
  | .ldst => { s with cfgLdst := t }

/-- `fr_write` (70_reset_and_hazards.md R227): a write of 0 is refused, the remainders stay. -/
def hostFrWrite (r : Half) (s : State) : Host.Outcome State Fault Refusal :=
  if r = 0 then .refused .frWriteZero else .next { s with fr := r }

/-- What the debug port may write: the list of 60_exceptions.md R211 and 70_reset_and_hazards.md R228 (DESIGN CHOICE, log 21: 10_state.md R18 lets
`debug` reach the timer remainders, and the port table of 00_scope.md R6 says all state; this model writes no piece outside the list). -/
inductive DebugWrite where
  | mem (a : Addr) (b : Byte)
  | slot (k : Nibble) (a : Half)
  | sp (n : BitVec 5)
  | pc (a : Half)
  | index (a : Half)
  | reg (x : Nibble) (b : Byte)
deriving DecidableEq, Repr

/-- A debug write (60_exceptions.md R211, 70_reset_and_hazards.md R228; its reach: log 21): the written value and nothing else. -/
def hostDebugWrite (w : DebugWrite) (s : State) : State :=
  match w with
  | .mem a b => s.setMem (cellWrite blankMem s.mem a.toNat b)
  | .slot k a => { s with stack := s.stack.set k.toNat a k.isLt }
  | .sp n => { s with sp := n }
  | .pc a => s.setPc a
  | .index a => s.setI a
  | .reg x b => s.setReg x b

/-- The host's moves (70_reset_and_hazards.md R230). `drive` lines up input samples (log 1, 2). -/
inductive HostMove where
  | reset
  | load (bytes : List Byte)
  | cfgWrite (f : ConfigField) (t : Toggle)
  | frWrite (r : Half)
  | debugWrite (w : DebugWrite)
  | drive (keys : List Half) (rands : List Byte)
deriving DecidableEq, Repr

/-- One host's move between two cycles. -/
def hostMove (h : HostMove) (s : State) : Host.Outcome State Fault Refusal :=
  match h with
  | .reset => .next (hostReset s)
  | .load bytes => hostLoad bytes s
  | .cfgWrite f t => .next (hostCfgWrite f t s)
  | .frWrite r => hostFrWrite r s
  | .debugWrite w => .next (hostDebugWrite w s)
  | .drive keys rands => .next { s with keyTape := s.keyTape ++ keys, randTape := s.randTape ++ rands }

/-- `fb_read` (60_exceptions.md R209): the 2048 cells in row-major order. -/
def framebuffer (s : State) : List Byte :=
  (List.range (Config.width * Config.height)).map (cellRead blankDisp s.disp)

/-- 10_state.md R29: `size()`, the capacity. -/
def stackSize (_ : State) : Nat := Config.stackCap

/-- 10_state.md R29: `itemCount()`. -/
def stackItemCount (s : State) : Nat := s.sp.toNat

/-- 10_state.md R29: the position `top()` gives, when the stack holds an item. -/
def stackTop (s : State) : Option Nat := if s.sp = 0 then none else some (s.sp.toNat - 1)

/-- 10_state.md R29: the position `base()` gives. -/
def stackBase (_ : State) : Nat := 0

end Sys2Proof.Machine
end

