-- ==== Sys2Proof/Safety.lean ====
section
/-! DEFINITION. The terms claims use: the invariant of the state (10_state.md R31), runs that absorbed nothing (60_exceptions.md R191), and what a transition leaves unchanged. -/

namespace Sys2Proof.Machine

/-- The invariants of 10_state.md R31 that speak of one state, and the canonical form of the two arrays. After AddrFault only the form is
claimed, since all other state is unspecified (20_memory.md R45). -/
structure State.Inv (s : State) : Prop where
  /-- Memory is in canonical form. -/
  memCanonical : Memory.wf s.mem
  /-- The display is in canonical form. -/
  dispCanonical : Display.wf s.disp
  /-- `0 ≤ sp ≤ 16`. -/
  cursor : s.fault = false → s.sp.toNat ≤ Config.stackCap
  /-- `0 ≤ drem ≤ 1`. -/
  delayRemainder : s.fault = false → 0 ≤ s.drem ∧ s.drem ≤ 1
  /-- `0 ≤ srem ≤ 1`. -/
  soundRemainder : s.fault = false → 0 ≤ s.srem ∧ s.srem ≤ 1
  /-- `FR ≥ 1`. -/
  frameRate : s.fault = false → s.fr ≠ 0
  /-- In the binary regime every cell is 0 or 1. -/
  binaryCells : s.fault = false → s.par.pixelMode = .binary → ∀ x y, pixel s x y = 0 ∨ pixel s x y = 1

/-- A step that absorbed no stack failure: the premise 60_exceptions.md R191 offers. -/
def State.absorbedNothing (s : State) : Prop := Event.stackOverflow ∉ s.out ∧ Event.stackUnderflow ∉ s.out

/-- The pieces of state a frame speaks about. -/
inductive Part where
  /-- The register with this index. -/
  | reg (x : Nibble)
  | pc
  | index
  | mem
  | disp
  /-- The stack and its cursor. -/
  | stack
  | dt
  | st
  /-- The two timer remainders. -/
  | remainders
  | lastKeyState
  | sndOn
  | fault
  /-- The three toggles. -/
  | toggles
  | frameRate
  | params
  /-- The model's own input fields. -/
  | inputs
  /-- The events of the cycle. -/
  | events
deriving DecidableEq, Repr

/-- The part is the same in two states. Memory and the display are compared cell by cell. -/
def Part.same : Part → State → State → Prop
  | .reg x, s, t => t.reg x = s.reg x
  | .pc, s, t => t.pc = s.pc
  | .index, s, t => t.i = s.i
  | .mem, s, t => ∀ a, memByte t a = memByte s a
  | .disp, s, t => ∀ x y, pixel t x y = pixel s x y
  | .stack, s, t => t.stack = s.stack ∧ t.sp = s.sp
  | .dt, s, t => t.dt = s.dt
  | .st, s, t => t.st = s.st
  | .remainders, s, t => t.drem = s.drem ∧ t.srem = s.srem
  | .lastKeyState, s, t => t.lastKeyState = s.lastKeyState
  | .sndOn, s, t => t.sndOn = s.sndOn
  | .fault, s, t => t.fault = s.fault
  | .toggles, s, t => t.cfgShift = s.cfgShift ∧ t.cfgJump = s.cfgJump ∧ t.cfgLdst = s.cfgLdst
  | .frameRate, s, t => t.fr = s.fr
  | .params, s, t => t.par = s.par
  | .inputs, s, t => t.keyTape = s.keyTape ∧ t.randTape = s.randTape ∧ t.draws = s.draws
  | .events, s, t => t.out = s.out

/-- Every part but the listed ones is the same in `t` as in `s`: the frame of a transition from `s` to `t`. -/
def State.unchangedBut (s t : State) (parts : List Part) : Prop := ∀ p, p ∉ parts → p.same s t

/-- The instruction completes and leaves the number `n` in register `r`. -/
def leaves (i : Instr) (s : State) (r : Nibble) (n : Nat) : Prop :=
  ∃ t, exec i s = .next t ∧ (t.reg r).toNat = n

/-- `k` decay steps of one timer at a constant frame rate (60_exceptions.md R201, R202). -/
def decayTimes (fr : Half) (k : Nat) (t : Byte) (r : Rat) : Byte × Rat :=
  (fun p : Byte × Rat => decay fr p.1 p.2)^[k] (t, r)

end Sys2Proof.Machine
end

