-- ==== Sys2Proof/Certificates/Slice0/Obligations.lean ====
section
/-! DEFINITION. The statements for the provers, one definition each; OBLIGATIONS.json lists them with the rules they formalise. In a statement about an instruction, `s` is the state after fetch, so `s.pc` is the instruction's address plus 2 (20_memory.md R44). -/

open Sys2Proof Sys2Proof.Machine

/-! ### Reset and invariants -/

/-- 10_state.md R30, 70_reset_and_hazards.md R220: whatever the state was, `reset` leaves the reset table; `State.reset` is the reset of the
instance with the default parameters. The font and the three toggles are the source's; every other value of the table is the spec's own choice
(92_eei_decisions.md D2, D15), the default font too (D20), whose bytes are those of the table of 20_memory.md R42 (log 5). -/
def Obligations.ResetLeavesTheResetTable : Prop :=
  State.reset = State.resetWith Config.defaultParams ∧
  State.reset.par.pixelMode = .binary ∧ State.reset.par.fadeStep.val = 1 ∧
  (List.range 80).map (fun k => memByte State.reset (0x050 + k)) =
    [0xF0, 0x90, 0x90, 0x90, 0xF0, 0x20, 0x60, 0x20, 0x20, 0x70, 0xF0, 0x10, 0xF0, 0x80, 0xF0, 0xF0, 0x10, 0xF0, 0x10, 0xF0] ++
    [0x90, 0x90, 0xF0, 0x10, 0x10, 0xF0, 0x80, 0xF0, 0x10, 0xF0, 0xF0, 0x80, 0xF0, 0x90, 0xF0, 0xF0, 0x10, 0x20, 0x40, 0x40] ++
    [0xF0, 0x90, 0xF0, 0x90, 0xF0, 0xF0, 0x90, 0xF0, 0x10, 0xF0, 0xF0, 0x90, 0x90, 0xF0, 0x90, 0xE0, 0x90, 0xE0, 0x90, 0xE0] ++
    [0xF0, 0x80, 0x80, 0x80, 0xF0, 0xE0, 0x90, 0x90, 0x90, 0xE0, 0xF0, 0x80, 0xF0, 0x80, 0xF0, 0xF0, 0x80, 0xF0, 0x80, 0x80] ∧
  ∀ s : State, ∃ t, hostMove .reset s = .next t ∧
    (∀ x, t.reg x = 0) ∧ t.pc = 0x0200 ∧ t.i = 0x0000 ∧
    (∀ k (_ : k < 80), memByte t (0x050 + k) = s.par.font[k]) ∧
    (∀ a, a < 0x1000 → ¬(0x050 ≤ a ∧ a < 0x0A0) → memByte t a = 0) ∧
    (∀ x y, x < 64 → y < 32 → pixel t x y = 0) ∧
    (∀ k (_ : k < 16), t.stack[k] = 0x0000) ∧ t.sp = 0 ∧
    t.dt = 0 ∧ t.st = 0 ∧ t.drem = 0 ∧ t.srem = 0 ∧ t.lastKeyState = 0x0000 ∧
    t.sndOn = false ∧ t.fault = false ∧
    t.cfgShift = .new ∧ t.cfgJump = .old ∧ t.cfgLdst = .new ∧ t.fr = 60 ∧ t.par = s.par

/-- 10_state.md R31 at reset, of the default instance and of any other; the reset values are the spec's choice (92_eei_decisions.md D2) and the
canonical form of memory and display is the model's (log 19). -/
def Obligations.ResetMeetsTheInvariant : Prop :=
  State.reset.Inv ∧ ∀ p, (State.resetWith p).Inv

/-- 10_state.md R31 (which the spec derives) and the canonical form of memory and display (the model's, log 19): every step keeps the invariant,
from every state that has it. -/
def Obligations.StepKeepsTheInvariant : Prop :=
  ∀ s t : State, s.Inv → step s = .next t → t.Inv

/-- 10_state.md R31 (which the spec derives): the host's moves keep the invariant, a debug write of the stack cursor above 16 excepted. That the
moves are functions beside `step` is the model's (log 14), and so is what a debug write reaches (log 21). -/
def Obligations.HostMovesKeepTheInvariant : Prop :=
  ∀ (h : HostMove) (s t : State), (∀ n, h = .debugWrite (.sp n) → n.toNat ≤ 16) →
    s.Inv → hostMove h s = .next t → t.Inv

/-! ### Encoding -/

/-- 30_encoding.md R65: decoding the encoding of a well-formed instruction gives it back, every operand included, the ignored nibbles too, which the
model carries (log 15). The patterns the source does not print are from general knowledge (93_implementation_defined.md G3, G4). -/
def Obligations.DecodeOfEncodeIsTheInstruction : Prop :=
  ∀ i : Instr, i.wellFormed = true → decode (encode i) = i

/-- 30_encoding.md R60, R64, 20_memory.md R43: every two bytes, the first the high byte, decode to a well-formed instruction that encodes to
those bytes, and the bytes after them are left; fewer than two bytes hold no instruction. No bit is lost (ignored bits kept: log 15; the
dispatch keys: 92_eei_decisions.md D5, D6). -/
def Obligations.EncodeOfDecodeIsTheBytes : Prop :=
  (∀ (hi lo : Byte) (rest : List Byte), ∃ i, decodeBytes (hi :: lo :: rest) = .ok (i, rest) ∧
    i = decode (hi ++ lo) ∧ i.wellFormed = true ∧ encodeBytes i = [hi, lo]) ∧
  ∀ bytes : List Byte, bytes.length < 2 → decodeBytes bytes = .error .truncated

/-- 30_encoding.md R65, R66: a word selects a row iff `(w & mask) = match`, no word selects two rows, and a word that selects none is the no-op.
The patterns the source does not print are from general knowledge (93_implementation_defined.md G3, G4). -/
def Obligations.DecodeFollowsTheOpcodeMap : Prop :=
  ∀ w : Half,
    (∀ r ∈ opcodeMap, w &&& r.2.1 = r.1 ↔ (decode w).mnemonic = r.2.2) ∧
    opcodeMap.Pairwise (fun r q => ¬(w &&& r.2.1 = r.1 ∧ w &&& q.2.1 = q.1)) ∧
    ((∀ r ∈ opcodeMap, w &&& r.2.1 ≠ r.1) ↔ decode w = .nop w)

/-- 30_encoding.md R65: words written out from the map's patterns, at least one of each of the sixteen leading nibbles. -/
def Obligations.WrittenWordsDecode : Prop :=
  decode 0x00E0 = .cls 0x0 ∧ decode 0x07EE = .ret 0x7 ∧ decode 0x1204 = .jp 0x204 ∧ decode 0x2210 = .call 0x210 ∧
  decode 0x3F01 = .seImm 0xF 0x01 ∧ decode 0x4211 = .sneImm 0x2 0x11 ∧ decode 0x5017 = .seReg 0x0 0x1 0x7 ∧
  decode 0x60FE = .ldImm 0x0 0xFE ∧ decode 0x71FF = .addImm 0x1 0xFF ∧
  decode 0x812E = .shl 0x1 0x2 ∧ decode 0x8018 = .nop 0x8018 ∧ decode 0x9010 = .sneReg 0x0 0x1 0x0 ∧
  decode 0xA300 = .ldI 0x300 ∧ decode 0xB312 = .jpOff 0x312 ∧
  decode 0xC10F = .rnd 0x1 0x0F ∧ decode 0xD015 = .drw 0x0 0x1 0x5 ∧ decode 0xE1A1 = .sknp 0x1 ∧
  decode 0xF30A = .ldVxK 0x3 ∧ decode 0xFA65 = .ldRegs 0xA

/-! ### The cycle -/

/-- 46_cycle_driver.md R170, 20_memory.md R44, R45: a core that is not faulted runs, on the state steps 1 to 5 leave, the instruction that the
two bytes at PC decode to; when it completes the keys are refreshed, when it raises AddrFault the step answers the faulted state (as a next
state: log 6), and a refusal stays a refusal. -/
def Obligations.StepRunsTheDecodedInstruction : Prop :=
  ∀ (s : State) (i : Instr), s.fault = false → s.fr ≠ 0 → s.pc.toNat ≤ 0xFFE →
    decode (memByte s s.pc.toNat ++ memByte s (s.pc.toNat + 1)) = i →
    (∀ t, exec i ((beforeFetch s).setPc (s.pc + 2)) = .next t → step s = .next (refreshKeys t)) ∧
    (∀ a, exec i ((beforeFetch s).setPc (s.pc + 2)) = .fault (.addrFault a) →
      ∃ u, step s = .next u ∧ u.fault = true ∧ u.out = (beforeFetch s).out ++ [.addrFault a]) ∧
    (∀ r, exec i ((beforeFetch s).setPc (s.pc + 2)) = .refused r → step s = .refused r)

/-- 46_cycle_driver.md R171 (92_eei_decisions.md D3): while `fault` is 1 a step changes nothing and emits nothing; the list of the latest step's
events, the model's own field (log 3), is empty after it. -/
def Obligations.FaultedCoreIsStuck : Prop :=
  ∀ s : State, s.fault = true → ∃ t, step s = .next t ∧ s.unchangedBut t [.events] ∧ t.out = []

/-- 20_memory.md R45, the fetch (92_eei_decisions.md D3): with PC above 0xFFE the step sets `fault`, and its last event names the first byte that
does not exist (60_exceptions.md R193). The step answers it as a next state (log 6). -/
def Obligations.FetchBeyondMemoryFaults : Prop :=
  ∀ s : State, s.fault = false → s.fr ≠ 0 → 0xFFE < s.pc.toNat →
    ∃ t, step s = .next t ∧ t.fault = true ∧
      t.out = (beforeFetch s).out ++ [.addrFault (if s.pc.toNat = 0xFFF then 0x1000 else s.pc.toNat)]

/-- 46_cycle_driver.md R178 (92_eei_decisions.md D3, D4, D24): what one cycle emits, in order. The events stand in the model's own field (log 3). -/
def Obligations.EventsOfOneCycle : Prop :=
  ∀ s t : State, s.fault = false → step s = .next t →
    ∃ a d : List Event, (a = [] ∨ a = [.audioToggle]) ∧
      ((t.fault = false ∧ d ∈ [[], [.poll], [.rand], [.stackOverflow], [.stackUnderflow]] ∧
          t.out = a ++ d ++ [.poll]) ∨
        (t.fault = true ∧ ∃ addr, 0xFFF < addr ∧ d = [.addrFault addr] ∧ t.out = a ++ d))

/-- 60_exceptions.md R205 (92_eei_decisions.md D17): a step toggles the audio output exactly once when the sound level after the decay differs from
the remembered one, and never otherwise; the level is remembered. The events stand in the model's own field (log 3). -/
def Obligations.AudioTogglesExactlyOnEdges : Prop :=
  ∀ s t : State, s.fault = false → step s = .next t →
    t.out.count .audioToggle = (if decide (0 < (decay s.fr s.st s.srem).1.toNat) = s.sndOn then 0 else 1) ∧
    (t.fault = false → t.sndOn = decide (0 < (decay s.fr s.st s.srem).1.toNat))

/-- 60_exceptions.md R201 (92_eei_decisions.md D12, D13, D14) for both timers, as steps 1 and 2 of a cycle apply it. -/
def Obligations.TimersDecayByExactTicks : Prop :=
  ∀ s : State, s.fr ≠ 0 →
    (s.dt = 0 → (beforeFetch s).dt = 0 ∧ (beforeFetch s).drem = s.drem) ∧
    (s.dt ≠ 0 → s.drem + 60 / (s.fr.toNat : Rat) ≤ 1 →
      (beforeFetch s).dt = s.dt ∧ (beforeFetch s).drem = s.drem + 60 / (s.fr.toNat : Rat)) ∧
    (s.dt ≠ 0 → 1 < s.drem + 60 / (s.fr.toNat : Rat) →
      ((beforeFetch s).dt.toNat : Int) = max 0 ((s.dt.toNat : Int) - (s.drem + 60 / (s.fr.toNat : Rat)).floor) ∧
      (beforeFetch s).drem = s.drem + 60 / (s.fr.toNat : Rat) - ((s.drem + 60 / (s.fr.toNat : Rat)).floor : Rat)) ∧
    (s.st = 0 → (beforeFetch s).st = 0 ∧ (beforeFetch s).srem = s.srem) ∧
    (s.st ≠ 0 → s.srem + 60 / (s.fr.toNat : Rat) ≤ 1 →
      (beforeFetch s).st = s.st ∧ (beforeFetch s).srem = s.srem + 60 / (s.fr.toNat : Rat)) ∧
    (s.st ≠ 0 → 1 < s.srem + 60 / (s.fr.toNat : Rat) →
      ((beforeFetch s).st.toNat : Int) = max 0 ((s.st.toNat : Int) - (s.srem + 60 / (s.fr.toNat : Rat)).floor) ∧
      (beforeFetch s).srem = s.srem + 60 / (s.fr.toNat : Rat) - ((s.srem + 60 / (s.fr.toNat : Rat)).floor : Rat))

/-- 60_exceptions.md R202 (which the spec derives): over k cycles from a remainder of 0 the total decrement is 60k/FR minus the remainder, while
the timer does not run out. -/
def Obligations.TotalDecrementOfATimer : Prop :=
  ∀ (fr : Half) (k : Nat) (t : Byte), fr ≠ 0 → 60 * (k : Rat) / (fr.toNat : Rat) < (t.toNat : Rat) →
    (t.toNat : Rat) - ((decayTimes fr k t 0).1.toNat : Rat) =
        60 * (k : Rat) / (fr.toNat : Rat) - (decayTimes fr k t 0).2 ∧
      0 ≤ (decayTimes fr k t 0).2 ∧ (decayTimes fr k t 0).2 ≤ 1

/-- 60_exceptions.md R204 as 90_conflicts.md C3 corrects it: N cycles at 30 frames per second and 2N cycles at 60 reduce a timer by the same 2N. -/
def Obligations.TimerRateIsInvariant : Prop :=
  ∀ (n : Nat) (t : Byte), 2 * n ≤ t.toNat →
    (decayTimes 30 n t 0).1.toNat = t.toNat - 2 * n ∧ (decayTimes 60 (2 * n) t 0).1.toNat = t.toNat - 2 * n

/-- 43_display.md R143 (92_eei_decisions.md D18): the alpha decay step of a cycle, cell by cell; there is none in the binary regime; steps 1 to 4
touch nothing else but the timers, the audio edge and the events. The display's canonical form is the model's (log 19). -/
def Obligations.AlphaDecayFadesCells : Prop :=
  ∀ s : State, Display.wf s.disp →
    (s.par.pixelMode = .alpha → ∀ x y, (pixel (beforeFetch s) x y).toNat =
      if 0 < (pixel s x y).toNat ∧ (pixel s x y).toNat < 255 then (pixel s x y).toNat - s.par.fadeStep.val.toNat
      else (pixel s x y).toNat) ∧
    (s.par.pixelMode = .binary → ∀ x y, pixel (beforeFetch s) x y = pixel s x y) ∧
    s.unchangedBut (beforeFetch s) [.disp, .dt, .st, .remainders, .sndOn, .events]

/-- 30_encoding.md R66: the no-op has no effect of its own, and the whole effect of a word that matches no row is that of the cycle around it: the
timers decay, PC has advanced by 2, the keys are refreshed; no event of its own, no register written. -/
def Obligations.UnassignedWordsOnlyPassTheCycle : Prop :=
  (∀ (w : Half) (s : State), ∃ t, exec (.nop w) s = .next t ∧ s.unchangedBut t []) ∧
  ∀ (s : State) (w : Half), s.fault = false → s.fr ≠ 0 → s.pc.toNat ≤ 0xFFE →
    w = memByte s s.pc.toNat ++ memByte s (s.pc.toNat + 1) → (∀ r ∈ opcodeMap, w &&& r.2.1 ≠ r.1) →
    ∃ t, step s = .next t ∧ t = refreshKeys ((beforeFetch s).setPc (s.pc + 2)) ∧
      t.pc = s.pc + 2 ∧ t.dt = (decay s.fr s.dt s.drem).1 ∧ t.st = (decay s.fr s.st s.srem).1 ∧
      (∀ x, t.reg x = s.reg x) ∧ t.out = (beforeFetch s).out ++ [.poll] ∧
      s.unchangedBut t [.pc, .dt, .st, .remainders, .sndOn, .lastKeyState, .disp, .inputs, .events]

/-- 46_cycle_driver.md R175, R176 (92_eei_decisions.md D24): a cycle that does not fault ends with one key sample in `lastKeyState`, separate from
the sample its instruction took. The samples are those the host has lined up (the model's form of the input port, log 1). -/
def Obligations.KeySnapshotIsRefreshed : Prop :=
  ∀ (s t : State) (i : Instr), s.fault = false → s.pc.toNat ≤ 0xFFE →
    decode (memByte s s.pc.toNat ++ memByte s (s.pc.toNat + 1)) = i → step s = .next t → t.fault = false →
    (i.mnemonic ∉ ["SKP", "SKNP", "LD_Vx_K"] → ∀ r rest, s.keyTape = r :: rest →
      t.lastKeyState = r ∧ t.keyTape = rest) ∧
    (i.mnemonic ∈ ["SKP", "SKNP", "LD_Vx_K"] → ∀ d r rest, s.keyTape = d :: r :: rest →
      t.lastKeyState = r ∧ t.keyTape = rest)

/-- 60_exceptions.md R194, 10_state.md R21 (92_eei_decisions.md D3): a faulted core stays faulted through every step and every host's move but
`reset`, which clears the fault (that no debug write reaches it is the model's reading of R211: log 21). -/
def Obligations.OnlyResetClearsTheFault : Prop :=
  ∀ s : State, s.fault = true →
    (∀ t, step s = .next t → t.fault = true) ∧
    (∀ h t, h ≠ .reset → hostMove h s = .next t → t.fault = true) ∧
    ∃ t, hostMove .reset s = .next t ∧ t.fault = false

/-- 70_reset_and_hazards.md R232 (92_eei_decisions.md D31): a core parked on a jump to its own address changes, from then on, only the timers, their
remainders, `snd_on`, `lastKeyState` and, in the alpha regime, fading cells (beside the model's own fields: log 1, 2, 3): there each cell of 1..254
has fallen by FADE_STEP, stopping at 0, and cells at 0 and 255 stay (43_display.md R143, D18; the display's canonical form is the model's, log 19). -/
def Obligations.ParkedCoreStaysParked : Prop :=
  ∀ s : State, s.fault = false → s.fr ≠ 0 → s.pc.toNat ≤ 0xFFE →
    decode (memByte s s.pc.toNat ++ memByte s (s.pc.toNat + 1)) = .jp (s.pc.setWidth 12) →
    ∃ t, step s = .next t ∧ t.pc = s.pc ∧
      s.unchangedBut t [.dt, .st, .remainders, .sndOn, .lastKeyState, .disp, .inputs, .events] ∧
      (s.par.pixelMode = .binary → ∀ x y, pixel t x y = pixel s x y) ∧
      (s.par.pixelMode = .alpha → Display.wf s.disp → ∀ x y, (pixel t x y).toNat =
        if 0 < (pixel s x y).toNat ∧ (pixel s x y).toNat < 255 then (pixel s x y).toNat - s.par.fadeStep.val.toNat
        else (pixel s x y).toNat)

/-- 70_reset_and_hazards.md R221 (which the spec derives from its reset values, 92_eei_decisions.md D2): with nothing loaded, 1792 cycles of no-ops
succeed and the next fetch raises AddrFault(0x1000). -/
def Obligations.UnloadedCoreRunsToTheTopOfMemory : Prop :=
  ∃ s : State, Host.Core.run Sys2Proof.core 1792 State.reset = .next s ∧ s.fault = false ∧ s.pc = 0x1000 ∧
    ∃ t, step s = .next t ∧ t.fault = true ∧ t.out = [.addrFault 0x1000]

/-- The step behind 70_reset_and_hazards.md R221 (which the spec derives), from every state and not only along the run from reset: where memory is 0
from PC to its end a step only passes the cycle and advances PC by 2; where no two bytes are left the fetch faults at 0x1000 (92_eei_decisions.md
D3), which the step answers as a next state (log 6). -/
def Obligations.ZeroMemoryStepsAsNoOps : Prop :=
  ∀ s : State, s.fault = false → s.fr ≠ 0 → (∀ a, s.pc.toNat ≤ a → a ≤ 0xFFF → memByte s a = 0) →
    (s.pc.toNat ≤ 0xFFE → ∃ t, step s = .next t ∧ t.fault = false ∧ t.pc.toNat = s.pc.toNat + 2 ∧
      (∀ a, memByte t a = memByte s a) ∧ (∀ x, t.reg x = s.reg x) ∧
      s.unchangedBut t [.pc, .dt, .st, .remainders, .sndOn, .lastKeyState, .disp, .inputs, .events]) ∧
    (s.pc.toNat = 0xFFF ∨ s.pc.toNat = 0x1000 → ∃ t, step s = .next t ∧ t.fault = true ∧
      t.out = (beforeFetch s).out ++ [.addrFault 0x1000])

/-! ### Whole-machine rules -/

/-- 60_exceptions.md R198: no instruction reaches the toggles, FR, `snd_on`, the remainders or `fault`; nor the parameters (70_reset_and_hazards.md
R220), nor `lastKeyState`, which only the end of the cycle writes (10_state.md R19). -/
def Obligations.InstructionsCannotReachHostState : Prop :=
  ∀ (i : Instr) (s t : State), exec i s = .next t →
    t.cfgShift = s.cfgShift ∧ t.cfgJump = s.cfgJump ∧ t.cfgLdst = s.cfgLdst ∧ t.fr = s.fr ∧
    t.sndOn = s.sndOn ∧ t.drem = s.drem ∧ t.srem = s.srem ∧ t.fault = s.fault ∧ t.par = s.par ∧
    t.lastKeyState = s.lastKeyState

/-- 46_cycle_driver.md R174, 20_memory.md R47, 10_state.md R13, R15, R26, 60_exceptions.md R206: which instructions alone use the stack, memory, the
display, the timers, I and the two input ports. The samples stand in the model's own fields (log 1, 2, 3). -/
def Obligations.EachUnitHasItsInstructions : Prop :=
  ∀ (i : Instr) (s t : State), exec i s = .next t →
    (i.mnemonic ∉ ["CALL", "RET"] → Part.stack.same s t) ∧
    (i.mnemonic ∉ ["LD_B", "ST_regs"] → Part.mem.same s t) ∧
    (i.mnemonic ∉ ["CLS", "DRW"] → Part.disp.same s t) ∧
    (i.mnemonic ∉ ["SKP", "SKNP", "LD_Vx_K"] → t.keyTape = s.keyTape ∧ t.out.count .poll = s.out.count .poll) ∧
    (i.mnemonic ∉ ["RND"] → t.randTape = s.randTape ∧ t.out.count .rand = s.out.count .rand) ∧
    (i.mnemonic ∉ ["LD_DT_Vx"] → t.dt = s.dt) ∧ (i.mnemonic ∉ ["LD_ST_Vx"] → t.st = s.st) ∧
    (i.mnemonic ∉ ["LD_I", "ADD_I", "LD_F", "ST_regs", "LD_regs"] → t.i = s.i)

/-- 20_memory.md R52 (which the spec derives): the bytes a bulk store puts at the next instruction's address are the ones the next cycle fetches. -/
def Obligations.StoreIsSeenByTheNextFetch : Prop :=
  ∀ (s : State) (x : Nibble), s.fault = false → s.fr ≠ 0 → s.pc.toNat ≤ 0xFFE → 1 ≤ x.toNat →
    decode (memByte s s.pc.toNat ++ memByte s (s.pc.toNat + 1)) = .stRegs x →
    s.i = s.pc + 2 → s.i.toNat + x.toNat ≤ 0xFFF →
    ∃ t, step s = .next t ∧ t.fault = false ∧ t.pc = s.pc + 2 ∧
      ∃ u, fetch (beforeFetch t) = .ok (s.reg 0 ++ s.reg 1, u)

/-! ### Control flow -/

/-- 40_control_flow.md R81. -/
def Obligations.JumpSetsThePc : Prop :=
  ∀ (nnn : Addr) (s : State), ∃ t, exec (.jp nnn) s = .next t ∧ t.pc.toNat = nnn.toNat ∧ s.unchangedBut t [.pc]

/-- 40_control_flow.md R88: the exact sum of NNN and V[0] or V[X], X the top nibble of NNN. -/
def Obligations.OffsetJumpAddsARegister : Prop :=
  ∀ (nnn : Addr) (s : State), ∃ t, exec (.jpOff nnn) s = .next t ∧ s.unchangedBut t [.pc] ∧
    (s.cfgJump = .old → t.pc.toNat = nnn.toNat + (s.reg 0).toNat) ∧
    (s.cfgJump = .new → t.pc.toNat = nnn.toNat + (s.reg (BitVec.ofNat 4 (nnn.toNat / 256))).toNat)

/-- 40_control_flow.md R82, 10_state.md R27: CALL pushes the address after it and jumps; on a full stack it jumps all the same, the stack is
unchanged and the diagnostic event is emitted (92_eei_decisions.md D4; the slot written: D25). -/
def Obligations.CallPushesAndJumps : Prop :=
  ∀ (nnn : Addr) (s : State), s.sp.toNat ≤ 16 →
    ∃ t, exec (.call nnn) s = .next t ∧ t.pc.toNat = nnn.toNat ∧
      (s.sp.toNat < 16 → t.sp.toNat = s.sp.toNat + 1 ∧
        (∀ k (_ : k < 16), t.stack[k] = if k = s.sp.toNat then s.pc else s.stack[k]) ∧
        s.unchangedBut t [.pc, .stack]) ∧
      (s.sp.toNat = 16 → t.out = s.out ++ [.stackOverflow] ∧ s.unchangedBut t [.pc, .events])

/-- 40_control_flow.md R80, 10_state.md R28: RET pops into PC and the slot keeps its content (92_eei_decisions.md D25); on an empty stack nothing
changes but the diagnostic event (D4). -/
def Obligations.ReturnPopsThePc : Prop :=
  ∀ (g : Nibble) (s : State), s.sp.toNat ≤ 16 →
    ∃ t, exec (.ret g) s = .next t ∧
      (∀ k (_ : k < 16), s.sp.toNat = k + 1 → t.pc = s.stack[k] ∧ t.sp.toNat = k ∧ t.stack = s.stack ∧
        s.unchangedBut t [.pc, .stack]) ∧
      (s.sp.toNat = 0 → t.out = s.out ++ [.stackUnderflow] ∧ s.unchangedBut t [.events])

/-- 40_control_flow.md R82, R89: CALL and RET are a pair: a return right after a call with room on the stack resumes after the call. -/
def Obligations.ReturnUndoesCall : Prop :=
  ∀ (nnn : Addr) (g : Nibble) (s : State), s.sp.toNat < 16 →
    ∃ t u, exec (.call nnn) s = .next t ∧ exec (.ret g) t = .next u ∧
      u.pc = s.pc ∧ u.sp = s.sp ∧ s.unchangedBut u [.stack]

/-- 60_exceptions.md R211, 93_implementation_defined.md U10: with more than 16 items on the stack, which only a debug write can bring about, CALL and
RET are refused (the refusal: log 8). -/
def Obligations.BrokenStackIsRefused : Prop :=
  ∀ (nnn : Addr) (g : Nibble) (s : State), 16 < s.sp.toNat →
    exec (.call nnn) s = .refused .stackCursorOutOfRange ∧ exec (.ret g) s = .refused .stackCursorOutOfRange

/-- 40_control_flow.md R83 to R87: the four skips. -/
def Obligations.SkipsAdvanceByTwoMore : Prop :=
  ∀ (x y g : Nibble) (nn : Byte) (s : State),
    (∃ t, exec (.seImm x nn) s = .next t ∧ t.pc = (if s.reg x = nn then s.pc + 2 else s.pc) ∧ s.unchangedBut t [.pc]) ∧
    (∃ t, exec (.sneImm x nn) s = .next t ∧ t.pc = (if s.reg x ≠ nn then s.pc + 2 else s.pc) ∧ s.unchangedBut t [.pc]) ∧
    (∃ t, exec (.seReg x y g) s = .next t ∧ t.pc = (if s.reg x = s.reg y then s.pc + 2 else s.pc) ∧
      s.unchangedBut t [.pc]) ∧
    (∃ t, exec (.sneReg x y g) s = .next t ∧ t.pc = (if s.reg x ≠ s.reg y then s.pc + 2 else s.pc) ∧
      s.unchangedBut t [.pc])

/-! ### Loads, logic and arithmetic -/

/-- 41_alu.md R100, R101 (from general knowledge, 93_implementation_defined.md G4): load and add an immediate; no carry is recorded. -/
def Obligations.ImmediatesLoadAndAdd : Prop :=
  ∀ (x : Nibble) (nn : Byte) (s : State),
    (∃ t, exec (.ldImm x nn) s = .next t ∧ t.reg x = nn ∧ s.unchangedBut t [.reg x]) ∧
    (∃ t, exec (.addImm x nn) s = .next t ∧ (t.reg x).toNat = ((s.reg x).toNat + nn.toNat) % 256 ∧
      s.unchangedBut t [.reg x])

/-- 41_alu.md R102: assign copies V[Y] to V[X] and writes nothing else. -/
def Obligations.AssignCopiesARegister : Prop :=
  ∀ (x y : Nibble) (s : State), ∃ t, exec (.ldReg x y) s = .next t ∧ t.reg x = s.reg y ∧ s.unchangedBut t [.reg x]

/-- 41_alu.md R103 to R105: OR, AND and XOR write V[X] and nothing else; that VF is not written is the spec's decision (92_eei_decisions.md D26). -/
def Obligations.LogicWritesOneRegister : Prop :=
  ∀ (x y : Nibble) (s : State),
    (∃ t, exec (.orReg x y) s = .next t ∧ s.unchangedBut t [.reg x] ∧
      ∀ k, (t.reg x).getLsbD k = ((s.reg x).getLsbD k || (s.reg y).getLsbD k)) ∧
    (∃ t, exec (.andReg x y) s = .next t ∧ s.unchangedBut t [.reg x] ∧
      ∀ k, (t.reg x).getLsbD k = ((s.reg x).getLsbD k && (s.reg y).getLsbD k)) ∧
    (∃ t, exec (.xorReg x y) s = .next t ∧ s.unchangedBut t [.reg x] ∧
      ∀ k, (t.reg x).getLsbD k = ((s.reg x).getLsbD k ^^ (s.reg y).getLsbD k))

/-- 41_alu.md R106: the truncated sum, and the carry in VF unless VF is the destination (the order of the two writes: 92_eei_decisions.md D7). -/
def Obligations.AddSetsTheCarry : Prop :=
  ∀ (x y : Nibble) (s : State), ∃ t, exec (.addReg x y) s = .next t ∧
    (t.reg x).toNat = ((s.reg x).toNat + (s.reg y).toNat) % 256 ∧
    (x ≠ 0xF → t.reg 0xF = if 255 < (s.reg x).toNat + (s.reg y).toNat then 1 else 0) ∧
    s.unchangedBut t [.reg x, .reg 0xF]

/-- 41_alu.md R107, R109: the truncated difference in both orders, and VF = 1 iff the minuend is strictly greater, unless VF is the destination
(the order of the two writes: 92_eei_decisions.md D7). -/
def Obligations.SubtractionsSetNoBorrow : Prop :=
  ∀ (x y : Nibble) (s : State),
    (∃ t, exec (.subReg x y) s = .next t ∧
      (t.reg x).toNat = ((s.reg x).toNat + 256 - (s.reg y).toNat) % 256 ∧
      (x ≠ 0xF → t.reg 0xF = if (s.reg y).toNat < (s.reg x).toNat then 1 else 0) ∧
      s.unchangedBut t [.reg x, .reg 0xF]) ∧
    (∃ t, exec (.subnReg x y) s = .next t ∧
      (t.reg x).toNat = ((s.reg y).toNat + 256 - (s.reg x).toNat) % 256 ∧
      (x ≠ 0xF → t.reg 0xF = if (s.reg x).toNat < (s.reg y).toNat then 1 else 0) ∧
      s.unchangedBut t [.reg x, .reg 0xF])

/-- 41_alu.md R108, R110: the shifts, of V[Y] or of V[X] by `cfg_shift`; VF gets the bit shifted out, and with X = 15 that bit is shifted
(92_eei_decisions.md D8). -/
def Obligations.ShiftsMoveOneBit : Prop :=
  ∀ (x y : Nibble) (s : State) (b : Byte), b = (if s.cfgShift = .old then s.reg y else s.reg x) →
    (∃ t, exec (.shr x y) s = .next t ∧ s.unchangedBut t [.reg x, .reg 0xF] ∧
      (x ≠ 0xF → (t.reg x).toNat = b.toNat / 2 ∧ (t.reg 0xF).toNat = b.toNat % 2) ∧
      (x = 0xF → (t.reg 0xF).toNat = 0)) ∧
    (∃ t, exec (.shl x y) s = .next t ∧ s.unchangedBut t [.reg x, .reg 0xF] ∧
      (x ≠ 0xF → (t.reg x).toNat = b.toNat * 2 % 256 ∧ (t.reg 0xF).toNat = b.toNat / 128) ∧
      (x = 0xF → (t.reg 0xF).toNat = 2 * (b.toNat / 128)))

/-- 41_alu.md R119, the table (which the spec derives from 92_eei_decisions.md D7, D8): what the family-8 instructions leave when VF is itself an
operand; `a`, `b`, `f` are V[X], V[Y], VF before. -/
def Obligations.FlagRegisterAsOperand : Prop :=
  ∀ (s : State) (x y : Nibble) (a b f : Nat), x ≠ 0xF → y ≠ 0xF →
    a = (s.reg x).toNat → b = (s.reg y).toNat → f = (s.reg 0xF).toNat →
    (leaves (.addReg 0xF y) s 0xF ((f + b) % 256) ∧ leaves (.addReg x 0xF) s x ((a + f) % 256) ∧
      leaves (.addReg x 0xF) s 0xF (if 255 < a + f then 1 else 0) ∧ leaves (.addReg 0xF 0xF) s 0xF (2 * f % 256)) ∧
    (leaves (.subReg 0xF y) s 0xF ((f + 256 - b) % 256) ∧ leaves (.subReg x 0xF) s x ((a + 256 - f) % 256) ∧
      leaves (.subReg x 0xF) s 0xF (if f < a then 1 else 0) ∧ leaves (.subReg 0xF 0xF) s 0xF 0) ∧
    (leaves (.subnReg 0xF y) s 0xF ((b + 256 - f) % 256) ∧ leaves (.subnReg x 0xF) s x ((f + 256 - a) % 256) ∧
      leaves (.subnReg x 0xF) s 0xF (if a < f then 1 else 0) ∧ leaves (.subnReg 0xF 0xF) s 0xF 0) ∧
    (s.cfgShift = .new → leaves (.shr 0xF y) s 0xF 0 ∧ leaves (.shr 0xF 0xF) s 0xF 0 ∧
      leaves (.shl 0xF y) s 0xF (2 * (f / 128)) ∧ leaves (.shl 0xF 0xF) s 0xF (2 * (f / 128)) ∧
      leaves (.shr x 0xF) s x (a / 2) ∧ leaves (.shl x 0xF) s x (a * 2 % 256)) ∧
    (s.cfgShift = .old → leaves (.shr 0xF y) s 0xF 0 ∧ leaves (.shr x 0xF) s x (f / 2) ∧
      leaves (.shr x 0xF) s 0xF (f % 2) ∧ leaves (.shr 0xF 0xF) s 0xF 0 ∧
      leaves (.shl 0xF y) s 0xF (2 * (b / 128)) ∧ leaves (.shl x 0xF) s x (f * 2 % 256) ∧
      leaves (.shl x 0xF) s 0xF (f / 128) ∧ leaves (.shl 0xF 0xF) s 0xF (2 * (f / 128))) ∧
    (leaves (.ldReg 0xF y) s 0xF b ∧ leaves (.ldReg x 0xF) s x f ∧
      leaves (.orReg 0xF y) s 0xF (f ||| b) ∧ leaves (.orReg x 0xF) s x (a ||| f) ∧
      leaves (.andReg 0xF y) s 0xF (f &&& b) ∧ leaves (.andReg x 0xF) s x (a &&& f) ∧
      leaves (.xorReg 0xF y) s 0xF (f ^^^ b) ∧ leaves (.xorReg x 0xF) s x (a ^^^ f))

/-! ### Index register and memory -/

/-- 42_index_memory.md R120, R122: LD I and LD F set I and nothing else. -/
def Obligations.IndexIsSetByAddressOrGlyph : Prop :=
  ∀ (nnn : Addr) (x : Nibble) (s : State),
    (∃ t, exec (.ldI nnn) s = .next t ∧ t.i.toNat = nnn.toNat ∧ s.unchangedBut t [.index]) ∧
    (∃ t, exec (.ldF x) s = .next t ∧ t.i.toNat = 0x050 + (s.reg x).toNat % 16 * 5 ∧ s.unchangedBut t [.index])

/-- 42_index_memory.md R121: I wraps at 65536; VF becomes 1 when the new I exceeds 0x1000 and is left alone otherwise (92_eei_decisions.md D10). -/
def Obligations.IndexAddFlagsBeyondMemory : Prop :=
  ∀ (x : Nibble) (s : State), ∃ t, exec (.addI x) s = .next t ∧
    t.i.toNat = (s.i.toNat + (s.reg x).toNat) % 65536 ∧
    t.reg 0xF = (if 0x1000 < t.i.toNat then 1 else s.reg 0xF) ∧
    s.unchangedBut t [.index, .reg 0xF]

/-- 42_index_memory.md R124: the three decimal digits at I, I+1, I+2 and no other byte; AddrFault when I + 2 exceeds 0xFFF. -/
def Obligations.DecimalDigitsAreStored : Prop :=
  ∀ (x : Nibble) (s : State),
    (s.i.toNat ≤ 0xFFD → ∃ t, exec (.ldB x) s = .next t ∧
      (memByte t s.i.toNat).toNat = (s.reg x).toNat / 100 ∧
      (memByte t (s.i.toNat + 1)).toNat = (s.reg x).toNat / 10 % 10 ∧
      (memByte t (s.i.toNat + 2)).toNat = (s.reg x).toNat % 10 ∧
      (∀ a, ¬(s.i.toNat ≤ a ∧ a < s.i.toNat + 3) → memByte t a = memByte s a) ∧
      s.unchangedBut t [.mem]) ∧
    (0xFFF < s.i.toNat + 2 → ∃ a, exec (.ldB x) s = .fault (.addrFault a))

/-- 42_index_memory.md R125: V[0]..V[X] at I, I+1, ... and no other byte; I advanced by X+1 with `cfg_ldst = old` only; AddrFault when I + X
exceeds 0xFFF. -/
def Obligations.BulkStoreWritesTheRegisters : Prop :=
  ∀ (x : Nibble) (s : State),
    (s.i.toNat + x.toNat ≤ 0xFFF → ∃ t, exec (.stRegs x) s = .next t ∧
      (∀ k : Nibble, k.toNat ≤ x.toNat → memByte t (s.i.toNat + k.toNat) = s.reg k) ∧
      (∀ a, ¬(s.i.toNat ≤ a ∧ a ≤ s.i.toNat + x.toNat) → memByte t a = memByte s a) ∧
      t.i.toNat = (if s.cfgLdst = .old then (s.i.toNat + x.toNat + 1) % 65536 else s.i.toNat) ∧
      s.unchangedBut t [.mem, .index]) ∧
    (0xFFF < s.i.toNat + x.toNat → ∃ a, exec (.stRegs x) s = .fault (.addrFault a))

/-- 42_index_memory.md R126: V[0]..V[X] from I, I+1, ...; the registers above X and all of memory unchanged; I as for the store; AddrFault when
I + X exceeds 0xFFF; and its round trip: a bulk load, in any state with the memory a bulk store left and its I, restores the stored registers. -/
def Obligations.BulkLoadReadsTheRegisters : Prop :=
  ∀ (x : Nibble) (s : State),
    (s.i.toNat + x.toNat ≤ 0xFFF → ∃ t, exec (.ldRegs x) s = .next t ∧
      (∀ k : Nibble, t.reg k = if k.toNat ≤ x.toNat then memByte s (s.i.toNat + k.toNat) else s.reg k) ∧
      t.i.toNat = (if s.cfgLdst = .old then (s.i.toNat + x.toNat + 1) % 65536 else s.i.toNat) ∧
      ∀ p : Part, p ≠ .index → (∀ k, p ≠ .reg k) → p.same s t) ∧
    (0xFFF < s.i.toNat + x.toNat → ∃ a, exec (.ldRegs x) s = .fault (.addrFault a)) ∧
    (s.i.toNat + x.toNat ≤ 0xFFF → ∃ t, exec (.stRegs x) s = .next t ∧
      ∀ u : State, u.i = s.i → (∀ a, memByte u a = memByte t a) →
        ∃ w, exec (.ldRegs x) u = .next w ∧ ∀ k : Nibble, k.toNat ≤ x.toNat → w.reg k = s.reg k)

/-- 20_memory.md R45, R47, 60_exceptions.md R193, R196 (92_eei_decisions.md D3): an access beyond 0xFFF breaks the instruction off with the first
address that does not exist; a draw needs only the rows above the bottom edge, so it completes, whatever N is, when those lie in memory
(43_display.md R141; a coordinate in VF is 0: 92_eei_decisions.md D9). -/
def Obligations.OutOfRangeAccessReportsTheFirstByte : Prop :=
  ∀ (x y n : Nibble) (s : State) (y0 rows : Nat),
    y0 = (if y = 0xF then 0 else (s.reg y).toNat) % 32 → rows = min n.toNat (32 - y0) →
    (0xFFD < s.i.toNat → exec (.ldB x) s = .fault (.addrFault (max s.i.toNat 0x1000))) ∧
    (0xFFF < s.i.toNat + x.toNat → exec (.stRegs x) s = .fault (.addrFault (max s.i.toNat 0x1000)) ∧
      exec (.ldRegs x) s = .fault (.addrFault (max s.i.toNat 0x1000))) ∧
    (0 < rows → 0x1000 < s.i.toNat + rows → exec (.drw x y n) s = .fault (.addrFault (max s.i.toNat 0x1000))) ∧
    (rows = 0 ∨ s.i.toNat + rows ≤ 0x1000 → ∃ t, exec (.drw x y n) s = .next t)

/-! ### Display -/

/-- 43_display.md R140: every cell is 0 afterwards, in both regimes; VF is not written. -/
def Obligations.ClearScreenZeroesTheDisplay : Prop :=
  ∀ (g : Nibble) (s : State), ∃ t, exec (.cls g) s = .next t ∧ (∀ x y, pixel t x y = 0) ∧ s.unchangedBut t [.disp]

/-- 43_display.md R141, cell by cell, when every row that is drawn lies in memory: a cell under a set sprite bit turns off when it was on and on
otherwise, every other cell is unchanged, VF says whether a lit cell was turned off; rows and columns beyond the edges are clipped; the
coordinates are taken modulo the display's size after VF was cleared (92_eei_decisions.md D9; the alpha regime's values: D18). -/
def Obligations.DrawTogglesTheSpriteCells : Prop :=
  ∀ (x y n : Nibble) (s : State) (x0 y0 rows : Nat) (on off : Byte),
    x0 = (if x = 0xF then 0 else (s.reg x).toNat) % 64 → y0 = (if y = 0xF then 0 else (s.reg y).toNat) % 32 →
    rows = min n.toNat (32 - y0) →
    on = (if s.par.pixelMode = .alpha then 255 else 1) →
    off = (if s.par.pixelMode = .alpha then 255 - s.par.fadeStep.val else 0) →
    rows = 0 ∨ s.i.toNat + rows ≤ 0x1000 →
      ∃ t, exec (.drw x y n) s = .next t ∧ s.unchangedBut t [.disp, .reg 0xF] ∧
        (∀ cx cy, cx < 64 →
          (y0 ≤ cy ∧ cy < y0 + rows ∧ x0 ≤ cx ∧ cx < x0 + 8 ∧
              (memByte s (s.i.toNat + (cy - y0))).getLsbD (7 - (cx - x0)) = true →
            pixel t cx cy = if pixel s cx cy = on then off else on) ∧
          (¬(y0 ≤ cy ∧ cy < y0 + rows ∧ x0 ≤ cx ∧ cx < x0 + 8 ∧
              (memByte s (s.i.toNat + (cy - y0))).getLsbD (7 - (cx - x0)) = true) →
            pixel t cx cy = pixel s cx cy)) ∧
        (t.reg 0xF = 0 ∨ t.reg 0xF = 1) ∧
        (t.reg 0xF = 1 ↔ ∃ cx cy, cx < 64 ∧ y0 ≤ cy ∧ cy < y0 + rows ∧ x0 ≤ cx ∧ cx < x0 + 8 ∧
          (memByte s (s.i.toNat + (cy - y0))).getLsbD (7 - (cx - x0)) = true ∧ pixel s cx cy = on)

/-- The worked example of 43_display.md R141, for any sprite: in the binary regime, drawing the same sprite a second time at the same place
restores the display. (A coordinate in VF is 0 in both draws: 92_eei_decisions.md D9.) -/
def Obligations.DrawingTwiceRestoresTheDisplay : Prop :=
  ∀ (x y n : Nibble) (s t : State), s.par.pixelMode = .binary → (∀ cx cy, pixel s cx cy = 0 ∨ pixel s cx cy = 1) →
    exec (.drw x y n) s = .next t →
    ∃ u, exec (.drw x y n) t = .next u ∧ ∀ cx cy, cx < 64 → pixel u cx cy = pixel s cx cy

/-- 60_exceptions.md R209: the framebuffer is the 2048 cells in row-major order. -/
def Obligations.FramebufferIsRowMajor : Prop :=
  ∀ s : State, (framebuffer s).length = 2048 ∧
    ∀ x y, x < 64 → y < 32 → (framebuffer s)[y * 64 + x]? = some (pixel s x y)

/-! ### Random, keypad, timer access -/

/-- 44_input_random_timer.md R150 (92_eei_decisions.md D29): one sample under the mask. The sample is the first the host has lined up, otherwise a
free value (the model's form of the input port, log 2). -/
def Obligations.RandomByteIsMasked : Prop :=
  ∀ (x : Nibble) (nn : Byte) (s : State), ∃ t r, exec (.rnd x nn) s = .next t ∧
    (∀ r0 rest, s.randTape = r0 :: rest → r = r0 ∧ t.randTape = rest) ∧
    t.reg x = r &&& nn ∧ t.out = s.out ++ [.rand] ∧ t.keyTape = s.keyTape ∧
    s.unchangedBut t [.reg x, .inputs, .events]

/-- 44_input_random_timer.md R153, R154 (92_eei_decisions.md D23): one poll; skip iff V[X] is at most 0x0F and its key is held (SKP) or not held
(SKNP). The sample is the first the host has lined up, otherwise a free value (the model's form of the input port, log 1). -/
def Obligations.KeySkipsTestOneKey : Prop :=
  ∀ (x : Nibble) (s : State),
    (∃ t k, exec (.skp x) s = .next t ∧
      (∀ k0 rest, s.keyTape = k0 :: rest → k = k0 ∧ t.keyTape = rest) ∧
      t.pc = (if (s.reg x).toNat ≤ 0x0F ∧ k.getLsbD (s.reg x).toNat = true then s.pc + 2 else s.pc) ∧
      t.out = s.out ++ [.poll] ∧ t.randTape = s.randTape ∧ s.unchangedBut t [.pc, .inputs, .events]) ∧
    (∃ t k, exec (.sknp x) s = .next t ∧
      (∀ k0 rest, s.keyTape = k0 :: rest → k = k0 ∧ t.keyTape = rest) ∧
      t.pc = (if (s.reg x).toNat ≤ 0x0F ∧ k.getLsbD (s.reg x).toNat = false then s.pc + 2 else s.pc) ∧
      t.out = s.out ++ [.poll] ∧ t.randTape = s.randTape ∧ s.unchangedBut t [.pc, .inputs, .events])

/-- 44_input_random_timer.md R156: the wait steps PC back; otherwise V[X] gets the lowest released key, if one was released, and is not written
otherwise (92_eei_decisions.md D11, log 12). The sample is the first the host has lined up, otherwise a free value (log 1). -/
def Obligations.KeyWaitEndsOnRelease : Prop :=
  ∀ (x : Nibble) (s : State), ∃ t k, exec (.ldVxK x) s = .next t ∧
    (∀ k0 rest, s.keyTape = k0 :: rest → k = k0 ∧ t.keyTape = rest) ∧
    t.out = s.out ++ [.poll] ∧ t.randTape = s.randTape ∧
    s.unchangedBut t [.pc, .reg x, .inputs, .events] ∧
    (s.lastKeyState = 0 ∨ s.lastKeyState = k → t.pc = s.pc - 2 ∧ t.reg x = s.reg x) ∧
    (s.lastKeyState ≠ 0 → s.lastKeyState ≠ k → t.pc = s.pc ∧
      (∀ j, j < 16 → s.lastKeyState.getLsbD j = true → k.getLsbD j = false →
        (∀ l, l < j → s.lastKeyState.getLsbD l = true → k.getLsbD l = true) → (t.reg x).toNat = j) ∧
      ((∀ j, j < 16 → s.lastKeyState.getLsbD j = true → k.getLsbD j = true) → t.reg x = s.reg x))

/-- 44_input_random_timer.md R157 to R159 (from general knowledge, 93_implementation_defined.md G4): the timer instructions; the remainders and
`snd_on` are not changed (92_eei_decisions.md D16). -/
def Obligations.TimersAreReadAndSet : Prop :=
  ∀ (x : Nibble) (s : State),
    (∃ t, exec (.ldVxDt x) s = .next t ∧ t.reg x = s.dt ∧ s.unchangedBut t [.reg x]) ∧
    (∃ t, exec (.ldDtVx x) s = .next t ∧ t.dt = s.reg x ∧ s.unchangedBut t [.dt]) ∧
    (∃ t, exec (.ldStVx x) s = .next t ∧ t.st = s.reg x ∧ s.unchangedBut t [.st])

/-! ### The host's moves -/

/-- 70_reset_and_hazards.md R225: `load` writes the program's bytes and PC and nothing else; too long a program and a faulted core are refused
(92_eei_decisions.md D19, D3). -/
def Obligations.LoadPlacesTheProgram : Prop :=
  ∀ (bytes : List Byte) (s : State),
    (bytes.length ≤ 3584 → s.fault = false → ∃ t, hostMove (.load bytes) s = .next t ∧ t.pc = 0x0200 ∧
      (∀ k (_ : k < bytes.length), memByte t (0x200 + k) = bytes[k]) ∧
      (∀ a, ¬(0x200 ≤ a ∧ a < 0x200 + bytes.length) → memByte t a = memByte s a) ∧
      s.unchangedBut t [.mem, .pc]) ∧
    (3584 < bytes.length → hostMove (.load bytes) s = .refused .loadTooLong) ∧
    (bytes.length ≤ 3584 → s.fault = true → hostMove (.load bytes) s = .refused .loadWhileFaulted)

/-- 70_reset_and_hazards.md R226: a toggle is stored and nothing else happens, and no instruction changes one. -/
def Obligations.ConfigurationWritesStoreOnly : Prop :=
  (∀ (v : Toggle) (s : State),
    (∃ t, hostMove (.cfgWrite .shift v) s = .next t ∧ t.cfgShift = v ∧ t.cfgJump = s.cfgJump ∧ t.cfgLdst = s.cfgLdst ∧
      s.unchangedBut t [.toggles]) ∧
    (∃ t, hostMove (.cfgWrite .jump v) s = .next t ∧ t.cfgShift = s.cfgShift ∧ t.cfgJump = v ∧ t.cfgLdst = s.cfgLdst ∧
      s.unchangedBut t [.toggles]) ∧
    (∃ t, hostMove (.cfgWrite .ldst v) s = .next t ∧ t.cfgShift = s.cfgShift ∧ t.cfgJump = s.cfgJump ∧ t.cfgLdst = v ∧
      s.unchangedBut t [.toggles])) ∧
  ∀ (i : Instr) (s t : State), exec i s = .next t → Part.toggles.same s t

/-- 70_reset_and_hazards.md R227 (92_eei_decisions.md D15): the frame rate is stored and nothing else happens; a write of 0 is refused. -/
def Obligations.FrameRateWriteStoresOnly : Prop :=
  ∀ (r : Half) (s : State),
    (r ≠ 0 → ∃ t, hostMove (.frWrite r) s = .next t ∧ t.fr = r ∧ s.unchangedBut t [.frameRate]) ∧
    (r = 0 → hostMove (.frWrite r) s = .refused .frWriteZero)

/-- 70_reset_and_hazards.md R228: debug writes set memory, stack, sp, PC, I and registers to any values, each alone. (That no debug write
sets another piece of state is the model's choice, log 21; nothing here rests on it.) -/
def Obligations.DebugWritesSetOnePiece : Prop :=
  ∀ (s : State) (a : Addr) (b : Byte) (h : Half) (k x : Nibble) (n : BitVec 5),
    (∃ t, hostMove (.debugWrite (.mem a b)) s = .next t ∧
      (∀ c, memByte t c = if c = a.toNat then b else memByte s c) ∧ s.unchangedBut t [.mem]) ∧
    (∃ t, hostMove (.debugWrite (.slot k h)) s = .next t ∧ t.sp = s.sp ∧
      (∀ j (_ : j < 16), t.stack[j] = if j = k.toNat then h else s.stack[j]) ∧ s.unchangedBut t [.stack]) ∧
    (∃ t, hostMove (.debugWrite (.sp n)) s = .next t ∧ t.sp = n ∧ t.stack = s.stack ∧ s.unchangedBut t [.stack]) ∧
    (∃ t, hostMove (.debugWrite (.pc h)) s = .next t ∧ t.pc = h ∧ s.unchangedBut t [.pc]) ∧
    (∃ t, hostMove (.debugWrite (.index h)) s = .next t ∧ t.i = h ∧ s.unchangedBut t [.index]) ∧
    (∃ t, hostMove (.debugWrite (.reg x b)) s = .next t ∧ t.reg x = b ∧ s.unchangedBut t [.reg x])
end

