-- ==== Sys2Proof/Laws/Decode.lean ====
section
/-! SUPPORT. The fields of the three word layouts, and the words as numbers: what a proof about the decoder or the encoder needs. -/

namespace Sys2Proof

/-! ### Words and fields as numbers -/

theorem wordNNN_toNat (op : Nibble) (nnn : Addr) : (wordNNN op nnn).toNat = op.toNat * 4096 + nnn.toNat := by
  show (op ++ nnn : BitVec (4 + 12)).toNat = _
  rw [BitVec.toNat_append, ← Nat.shiftLeft_add_eq_or_of_lt nnn.isLt, Nat.shiftLeft_eq]

theorem wordXNN_toNat (op x : Nibble) (nn : Byte) :
    (wordXNN op x nn).toNat = op.toNat * 4096 + x.toNat * 256 + nn.toNat := by
  show ((op ++ x : BitVec (4 + 4)) ++ nn : BitVec (8 + 8)).toNat = _
  rw [BitVec.toNat_append, ← Nat.shiftLeft_add_eq_or_of_lt nn.isLt, BitVec.toNat_append,
    ← Nat.shiftLeft_add_eq_or_of_lt x.isLt, Nat.shiftLeft_eq, Nat.shiftLeft_eq]
  omega

theorem wordXYN_toNat (op x y n : Nibble) :
    (wordXYN op x y n).toNat = op.toNat * 4096 + x.toNat * 256 + y.toNat * 16 + n.toNat := by
  show (((op ++ x : BitVec (4 + 4)) ++ y : BitVec (8 + 4)) ++ n : BitVec (12 + 4)).toNat = _
  rw [BitVec.toNat_append, ← Nat.shiftLeft_add_eq_or_of_lt n.isLt, BitVec.toNat_append,
    ← Nat.shiftLeft_add_eq_or_of_lt y.isLt, BitVec.toNat_append, ← Nat.shiftLeft_add_eq_or_of_lt x.isLt,
    Nat.shiftLeft_eq, Nat.shiftLeft_eq, Nat.shiftLeft_eq]
  omega

theorem opOf_toNat (w : Half) : (opOf w).toNat = w.toNat / 4096 := by
  have := w.isLt
  simp only [opOf, BitVec.extractLsb'_toNat, Nat.shiftRight_eq_div_pow]
  omega

theorem xOf_toNat (w : Half) : (xOf w).toNat = w.toNat / 256 % 16 := by
  simp [xOf, BitVec.extractLsb'_toNat, Nat.shiftRight_eq_div_pow]

theorem yOf_toNat (w : Half) : (yOf w).toNat = w.toNat / 16 % 16 := by
  simp [yOf, BitVec.extractLsb'_toNat, Nat.shiftRight_eq_div_pow]

theorem nOf_toNat (w : Half) : (nOf w).toNat = w.toNat % 16 := by
  simp [nOf, BitVec.extractLsb'_toNat]

theorem nnOf_toNat (w : Half) : (nnOf w).toNat = w.toNat % 256 := by
  simp [nnOf, BitVec.extractLsb'_toNat]

theorem nnnOf_toNat (w : Half) : (nnnOf w).toNat = w.toNat % 4096 := by
  simp [nnnOf, BitVec.extractLsb'_toNat]

/-! ### The fields of a word that was laid out -/

theorem opOf_wordNNN (op : Nibble) (nnn : Addr) : opOf (wordNNN op nnn) = op := by
  apply BitVec.eq_of_toNat_eq; rw [opOf_toNat, wordNNN_toNat]; have := nnn.isLt; omega
theorem nnnOf_wordNNN (op : Nibble) (nnn : Addr) : nnnOf (wordNNN op nnn) = nnn := by
  apply BitVec.eq_of_toNat_eq; rw [nnnOf_toNat, wordNNN_toNat]; have := nnn.isLt; omega
theorem opOf_wordXNN (op x : Nibble) (nn : Byte) : opOf (wordXNN op x nn) = op := by
  apply BitVec.eq_of_toNat_eq; rw [opOf_toNat, wordXNN_toNat]; have := nn.isLt; have := x.isLt; omega
theorem xOf_wordXNN (op x : Nibble) (nn : Byte) : xOf (wordXNN op x nn) = x := by
  apply BitVec.eq_of_toNat_eq; rw [xOf_toNat, wordXNN_toNat]; have := nn.isLt; have := x.isLt; omega
theorem nnOf_wordXNN (op x : Nibble) (nn : Byte) : nnOf (wordXNN op x nn) = nn := by
  apply BitVec.eq_of_toNat_eq; rw [nnOf_toNat, wordXNN_toNat]; have := nn.isLt; omega
theorem opOf_wordXYN (op x y n : Nibble) : opOf (wordXYN op x y n) = op := by
  apply BitVec.eq_of_toNat_eq; rw [opOf_toNat, wordXYN_toNat]
  have := n.isLt; have := y.isLt; have := x.isLt; omega
theorem xOf_wordXYN (op x y n : Nibble) : xOf (wordXYN op x y n) = x := by
  apply BitVec.eq_of_toNat_eq; rw [xOf_toNat, wordXYN_toNat]
  have := n.isLt; have := y.isLt; have := x.isLt; omega
theorem yOf_wordXYN (op x y n : Nibble) : yOf (wordXYN op x y n) = y := by
  apply BitVec.eq_of_toNat_eq; rw [yOf_toNat, wordXYN_toNat]
  have := n.isLt; have := y.isLt; omega
theorem nOf_wordXYN (op x y n : Nibble) : nOf (wordXYN op x y n) = n := by
  apply BitVec.eq_of_toNat_eq; rw [nOf_toNat, wordXYN_toNat]; have := n.isLt; omega

/-! ### A word is its fields laid out again -/

theorem wordNNN_fields (w : Half) : wordNNN (opOf w) (nnnOf w) = w := by
  apply BitVec.eq_of_toNat_eq; rw [wordNNN_toNat, opOf_toNat, nnnOf_toNat]; omega
theorem wordXNN_fields (w : Half) : wordXNN (opOf w) (xOf w) (nnOf w) = w := by
  apply BitVec.eq_of_toNat_eq; rw [wordXNN_toNat, opOf_toNat, xOf_toNat, nnOf_toNat]; omega
theorem wordXYN_fields (w : Half) : wordXYN (opOf w) (xOf w) (yOf w) (nOf w) = w := by
  apply BitVec.eq_of_toNat_eq; rw [wordXYN_toNat, opOf_toNat, xOf_toNat, yOf_toNat, nOf_toNat]; omega

/-! ### Masks: a word under a mask of whole nibbles -/

theorem wordXYN_and (op x y n op' x' y' n' : Nibble) : wordXYN op x y n &&& wordXYN op' x' y' n' =
    wordXYN (op &&& op') (x &&& x') (y &&& y') (n &&& n') := by
  show ((op ++ x : BitVec (4 + 4)) ++ y : BitVec (8 + 4)) ++ n &&& ((op' ++ x' : BitVec (4 + 4)) ++ y' : BitVec (8 + 4)) ++ n' =
    (((op &&& op') ++ (x &&& x') : BitVec (4 + 4)) ++ (y &&& y') : BitVec (8 + 4)) ++ (n &&& n')
  rw [BitVec.and_append, BitVec.and_append, BitVec.and_append]

theorem wordXYN_inj (op x y n op' x' y' n' : Nibble) :
    wordXYN op x y n = wordXYN op' x' y' n' ↔ op = op' ∧ x = x' ∧ y = y' ∧ n = n' := by
  constructor
  · intro h
    have h1 := congrArg opOf h
    have h2 := congrArg xOf h
    have h3 := congrArg yOf h
    have h4 := congrArg nOf h
    simp only [opOf_wordXYN, xOf_wordXYN, yOf_wordXYN, nOf_wordXYN] at h1 h2 h3 h4
    exact ⟨h1, h2, h3, h4⟩
  · rintro ⟨rfl, rfl, rfl, rfl⟩; rfl

/-- A word under a mask of whole nibbles equals a match iff its masked fields do. -/
theorem masked_eq_iff (w : Half) (op x y n op' x' y' n' : Nibble) :
    w &&& wordXYN op x y n = wordXYN op' x' y' n' ↔
      opOf w &&& op = op' ∧ xOf w &&& x = x' ∧ yOf w &&& y = y' ∧ nOf w &&& n = n' := by
  conv_lhs => rw [← wordXYN_fields w]
  rw [wordXYN_and, wordXYN_inj]

/-- NN is Y and N (30_encoding.md R61). -/
theorem nnOf_eq_fields (w : Half) : (nnOf w).toNat = (yOf w).toNat * 16 + (nOf w).toNat := by
  rw [nnOf_toNat, yOf_toNat, nOf_toNat]; omega

end Sys2Proof
end

