-- ==== Sys2Proof/Laws/Memory.lean ====
section
/-! SUPPORT. What the sparse arrays and the memory primitives do: reading after writing, the canonical form kept by every operation, and when an access faults. -/

namespace Sys2Proof.Machine

/-! ### Reading -/

theorem cellRead_cellErase (blank : Nat → Byte) (m : Cells) (a b : Nat) :
    cellRead blank (cellErase m a) b = if b = a then blank a else cellRead blank m b := by
  induction m with
  | nil => by_cases h : b = a <;> simp [cellErase, cellRead, h]
  | cons c t ih =>
    obtain ⟨k, v⟩ := c
    have e : cellErase ((k, v) :: t) a = if k = a then cellErase t a else (k, v) :: cellErase t a := by
      by_cases h : k = a <;> simp [cellErase, h]
    rw [e]
    by_cases h : k = a
    · rw [if_pos h, ih]
      by_cases hb : b = a
      · simp [hb]
      · have : k ≠ b := fun q => hb (q.symm.trans h)
        simp [hb, cellRead, this]
    · rw [if_neg h]
      by_cases hb : b = a
      · subst hb
        simp [cellRead, h, ih]
      · by_cases hk : k = b
        · simp [cellRead, hk, hb]
        · simp [cellRead, hk, ih, hb]

/-- What an insert reads as: unlisted before, so the inserted byte is found. -/
theorem cellRead_cellInsert (blank : Nat → Byte) (m : Cells) (a b : Nat) (v : Byte)
    (h : ∀ c ∈ m, c.1 ≠ a) :
    cellRead blank (cellInsert m a v) b = if b = a then v else cellRead blank m b := by
  induction m with
  | nil =>
    by_cases hb : b = a
    · simp [cellInsert, cellRead, hb]
    · simp [cellInsert, cellRead, hb, Ne.symm hb]
  | cons c t ih =>
    obtain ⟨k, w⟩ := c
    have hk : k ≠ a := h (k, w) (by simp)
    have ht := ih fun c hc => h c (by simp [hc])
    by_cases hl : a < k
    · by_cases hb : b = a
      · simp [cellInsert, hl, cellRead, hb]
      · simp [cellInsert, hl, cellRead, hb, Ne.symm hb]
    · by_cases hb : b = a
      · simp [cellInsert, hl, cellRead, hb, hk] at ht ⊢
        simpa [hb] using ht
      · simp [cellInsert, hl, cellRead, hb, ht]

theorem ne_of_mem_cellErase {m : Cells} {a : Nat} {c : Host.Cell} (h : c ∈ cellErase m a) : c.1 ≠ a := by
  simpa using (List.mem_filter.1 h).2

/-- Read after write, for every array. -/
theorem cellRead_cellWrite (blank : Nat → Byte) (m : Cells) (a b : Nat) (v : Byte) :
    cellRead blank (cellWrite blank m a v) b = if b = a then v else cellRead blank m b := by
  unfold cellWrite
  by_cases h : v = blank a
  · rw [if_pos h, cellRead_cellErase, h]
  · rw [if_neg h, cellRead_cellInsert _ _ _ _ _ fun c hc => ne_of_mem_cellErase hc, cellRead_cellErase]
    by_cases hb : b = a <;> simp [hb]

/-! ### The canonical form -/

theorem cellWf_nil (blank : Nat → Byte) (limit : Nat) : cellWf blank limit [] := by
  simp [cellWf]

theorem cellWf_cellErase {blank : Nat → Byte} {limit : Nat} {m : Cells} (a : Nat) (h : cellWf blank limit m) :
    cellWf blank limit (cellErase m a) :=
  ⟨h.1.filter _, fun c hc => h.2 c (List.mem_filter.1 hc).1⟩

theorem mem_cellInsert {m : Cells} {a : Nat} {v : Byte} {c : Host.Cell} (h : c ∈ cellInsert m a v) :
    c = (a, v) ∨ c ∈ m := by
  induction m with
  | nil => simpa [cellInsert] using h
  | cons d t ih =>
    obtain ⟨k, w⟩ := d
    by_cases hl : a < k
    · simpa [cellInsert, hl] using h
    · simp only [cellInsert, hl, if_false, List.mem_cons] at h ⊢
      rcases h with h | h
      · exact .inr (.inl h)
      · exact (ih h).imp id .inr

theorem cellWf_cellInsert {blank : Nat → Byte} {limit : Nat} {m : Cells} {a : Nat} {v : Byte}
    (h : cellWf blank limit m) (hne : ∀ c ∈ m, c.1 ≠ a) (ha : a < limit) (hv : v ≠ blank a) :
    cellWf blank limit (cellInsert m a v) := by
  refine ⟨?_, fun c hc => ?_⟩
  · obtain ⟨hp, -⟩ := h
    induction m with
    | nil => simp [cellInsert]
    | cons d t ih =>
      obtain ⟨k, w⟩ := d
      rw [List.pairwise_cons] at hp
      have hk : k ≠ a := hne (k, w) (by simp)
      by_cases hl : a < k
      · simp only [cellInsert, hl, if_true, List.pairwise_cons, List.mem_cons]
        refine ⟨fun c hc => ?_, hp.1, hp.2⟩
        rcases hc with rfl | hc
        · exact hl
        · exact hl.trans (hp.1 c hc)
      · simp only [cellInsert, hl, if_false, List.pairwise_cons]
        refine ⟨fun c hc => ?_, ih (fun c hc => hne c (by simp [hc])) hp.2⟩
        rcases mem_cellInsert hc with rfl | hc
        · exact lt_of_le_of_ne (not_lt.1 hl) hk
        · exact hp.1 c hc
  · rcases mem_cellInsert hc with rfl | hc
    · exact ⟨ha, hv⟩
    · exact h.2 c hc

/-- A write below the limit keeps the canonical form. -/
theorem cellWf_cellWrite {blank : Nat → Byte} {limit : Nat} {m : Cells} {a : Nat} (v : Byte)
    (h : cellWf blank limit m) (ha : a < limit) : cellWf blank limit (cellWrite blank m a v) := by
  unfold cellWrite
  split
  · exact cellWf_cellErase a h
  · rename_i hv
    exact cellWf_cellInsert (cellWf_cellErase a h) (fun c hc => ne_of_mem_cellErase hc) ha hv

theorem cellWf_cellTabulate (blank : Nat → Byte) (limit : Nat) (f : Nat → Byte) :
    cellWf blank limit (cellTabulate blank limit f) := by
  unfold cellTabulate
  refine ⟨?_, fun c hc => ?_⟩
  · refine List.Pairwise.filterMap _ ?_ (List.pairwise_lt_range (n := limit))
    intro a b hab c hc d hd
    by_cases ha : f a = blank a
    · simp [ha] at hc
    · by_cases hb : f b = blank b
      · simp [hb] at hd
      · simp only [ha, if_false, Option.some.injEq] at hc
        simp only [hb, if_false, Option.some.injEq] at hd
        subst hc hd
        exact hab
  · obtain ⟨a, ha, hc⟩ := List.mem_filterMap.1 hc
    by_cases h : f a = blank a
    · simp [h] at hc
    · simp only [h, if_false, Option.some.injEq] at hc
      subst hc
      exact ⟨List.mem_range.1 ha, h⟩

/-- A cell of the mapped array comes from a cell of the array. -/
theorem mem_cellMap {g : Byte → Byte} {m : Cells} {c : Host.Cell} (h : c ∈ cellMap g m) :
    ∃ d ∈ m, c = (d.1, g d.2) ∧ g d.2 ≠ 0 := by
  obtain ⟨d, hd, e⟩ := List.mem_filterMap.1 h
  by_cases hg : g d.2 = 0
  · simp only [hg, if_true, reduceCtorEq] at e
  · simp only [hg, if_false, Option.some.injEq] at e
    exact ⟨d, hd, e.symm, hg⟩

theorem cellWf_cellMap {limit : Nat} {m : Cells} (g : Byte → Byte) (h : cellWf blankDisp limit m) :
    cellWf blankDisp limit (cellMap g m) := by
  refine ⟨?_, fun c hc => ?_⟩
  · refine List.Pairwise.filterMap _ ?_ h.1
    intro a b hab c hc d hd
    by_cases ha : g a.2 = 0
    · simp only [ha, if_true, reduceCtorEq] at hc
    · by_cases hb : g b.2 = 0
      · simp only [hb, if_true, reduceCtorEq] at hd
      · simp only [ha, if_false, Option.some.injEq] at hc
        simp only [hb, if_false, Option.some.injEq] at hd
        subst hc hd
        exact hab
  · obtain ⟨d, hd, rfl, hg⟩ := mem_cellMap hc
    exact ⟨(h.2 d hd).1, hg⟩

theorem cellRead_of_notMem {blank : Nat → Byte} {m : Cells} {a : Nat} (h : ∀ c ∈ m, c.1 ≠ a) :
    cellRead blank m a = blank a := by
  induction m with
  | nil => rfl
  | cons c t ih =>
    obtain ⟨k, v⟩ := c
    have hk : k ≠ a := h (k, v) (by simp)
    simp [cellRead, hk, ih fun c hc => h c (by simp [hc])]

/-- Reading a mapped array in canonical form is mapping what was read. -/
theorem cellRead_cellMap {limit : Nat} {m : Cells} (g : Byte → Byte) (h0 : g 0 = 0)
    (h : cellWf blankDisp limit m) (a : Nat) :
    cellRead blankDisp (cellMap g m) a = g (cellRead blankDisp m a) := by
  obtain ⟨hp, hm⟩ := h
  induction m with
  | nil => exact h0.symm
  | cons c t ih =>
    obtain ⟨k, v⟩ := c
    rw [List.pairwise_cons] at hp
    have it := ih hp.2 fun c hc => hm c (by simp [hc])
    by_cases hg : g v = 0
    · have e : cellMap g ((k, v) :: t) = cellMap g t := by simp only [cellMap, List.filterMap_cons, hg, if_true]
      rw [e]
      by_cases hk : k = a
      · subst hk
        have hn : ∀ c ∈ cellMap g t, c.1 ≠ k := by
          intro c hc
          obtain ⟨d, hd, rfl, -⟩ := mem_cellMap hc
          exact (hp.1 d hd).ne'
        simp [cellRead_of_notMem hn, blankDisp, cellRead, hg]
      · simp [cellRead, hk, it]
    · have e : cellMap g ((k, v) :: t) = (k, g v) :: cellMap g t := by
        simp only [cellMap, List.filterMap_cons, hg, if_false]
      rw [e]
      by_cases hk : k = a
      · simp [cellRead, hk]
      · simp [cellRead, hk, it]

/-! ### Accesses -/

theorem memRead_ok {m : Cells} {a : Nat} (h : a < 0x1000) : memRead m a = .ok (cellRead blankMem m a) := by
  simp [memRead, Config.memSize, h]

theorem memRead_fault {m : Cells} {a : Nat} (h : 0x1000 ≤ a) : memRead m a = .error (.addrFault a) := by
  simp [memRead, Config.memSize, Nat.not_lt.2 h]

theorem memWrite_ok {m : Cells} {a : Nat} (v : Byte) (h : a < 0x1000) :
    memWrite m a v = .ok (cellWrite blankMem m a v) := by
  simp [memWrite, Config.memSize, h]

theorem memWrite_fault {m : Cells} {a : Nat} (v : Byte) (h : 0x1000 ≤ a) :
    memWrite m a v = .error (.addrFault a) := by
  simp [memWrite, Config.memSize, Nat.not_lt.2 h]

theorem memRead2_ok {m : Cells} {a : Nat} (h : a ≤ 0xFFE) :
    memRead2 m a = .ok (cellRead blankMem m a ++ cellRead blankMem m (a + 1)) := by
  simp [memRead2, memRead_ok (m := m) (a := a) (by omega), memRead_ok (m := m) (a := a + 1) (by omega)]

/-- The two-byte read reports the first byte that is out of range. -/
theorem memRead2_fault {m : Cells} {a : Nat} (h : 0xFFE < a) :
    memRead2 m a = .error (.addrFault (max a 0x1000)) := by
  by_cases ha : a < 0x1000
  · have e : a = 0xFFF := by omega
    subst e
    simp [memRead2, memRead_ok, memRead_fault]
  · have : max a 0x1000 = a := by omega
    simp [memRead2, memRead_fault (m := m) (a := a) (by omega), this]

/-- Stores that fit: they complete, and every byte reads as stored or as before. -/
theorem storeBytes_ok (bs : List Byte) : ∀ (m : Cells) (a : Nat), a + bs.length ≤ 0x1000 →
    ∃ m', storeBytes m a bs = .ok m' ∧ ∀ k, cellRead blankMem m' k =
      if a ≤ k ∧ k < a + bs.length then bs.getD (k - a) 0 else cellRead blankMem m k := by
  induction bs with
  | nil =>
    intro m a _
    refine ⟨m, rfl, fun k => ?_⟩
    have : ¬(a ≤ k ∧ k < a) := by omega
    simp [this]
  | cons b t ih =>
    intro m a h
    simp only [List.length_cons] at h
    obtain ⟨m', e, r⟩ := ih (cellWrite blankMem m a b) (a + 1) (by omega)
    refine ⟨m', by simp [storeBytes, memWrite_ok b (m := m) (a := a) (by omega), e], fun k => ?_⟩
    rw [r k, cellRead_cellWrite]
    by_cases hk : k = a
    · subst hk
      simp
    · by_cases hr : a + 1 ≤ k ∧ k < a + 1 + t.length
      · have h2 : a ≤ k ∧ k < a + (t.length + 1) := by omega
        obtain ⟨d, rfl⟩ : ∃ d, k = a + 1 + d := ⟨k - (a + 1), by omega⟩
        have e1 : a + 1 + d - a = d + 1 := by omega
        have e2 : a + 1 + d - (a + 1) = d := by omega
        simp [h2, e1, e2]
        omega
      · have h2 : ¬(a ≤ k ∧ k < a + (t.length + 1)) := by omega
        rw [if_neg hr, if_neg hk]
        simp [h2]

/-- Stores that do not fit report the first address that is out of range. -/
theorem storeBytes_fault (bs : List Byte) : ∀ (m : Cells) (a : Nat), 0x1000 < a + bs.length → bs ≠ [] →
    storeBytes m a bs = .error (.addrFault (max a 0x1000)) := by
  induction bs with
  | nil => simp
  | cons b t ih =>
    intro m a h _
    simp only [List.length_cons] at h
    by_cases ha : a < 0x1000
    · have hne : t ≠ [] := by rintro rfl; simp at h; omega
      have e : max (a + 1) 0x1000 = max a 0x1000 := by omega
      rw [storeBytes, memWrite_ok b ha]
      simpa only [e] using ih (cellWrite blankMem m a b) (a + 1) (by omega) hne
    · have e : max a 0x1000 = a := by omega
      simp [storeBytes, memWrite_fault b (m := m) (a := a) (by omega), e]

theorem storeBytes_wf (bs : List Byte) : ∀ {m m' : Cells} {a : Nat}, storeBytes m a bs = .ok m' →
    Memory.wf m → Memory.wf m' := by
  induction bs with
  | nil => intro m m' a e h; simp only [storeBytes, Except.ok.injEq] at e; exact e ▸ h
  | cons b t ih =>
    intro m m' a e h
    by_cases ha : a < 0x1000
    · rw [storeBytes, memWrite_ok b ha] at e
      exact ih e (cellWf_cellWrite b h ha)
    · simp [storeBytes, memWrite_fault b (m := m) (a := a) (by omega)] at e

/-- Loads that fit: they complete with the bytes of memory in order. -/
theorem loadBytes_ok (m : Cells) (n : Nat) : ∀ a, a + n ≤ 0x1000 →
    loadBytes m a n = .ok ((List.range n).map fun k => cellRead blankMem m (a + k)) := by
  induction n with
  | zero => intro a _; rfl
  | succ n ih =>
    intro a h
    rw [loadBytes, memRead_ok (by omega), ih (a + 1) (by omega)]
    simp only [List.range_succ_eq_map, List.map_cons, List.map_map, Nat.add_zero, Except.ok.injEq,
      List.cons.injEq, true_and, List.map_inj_left]
    intro k _
    simp [Nat.add_assoc, Nat.add_comm 1]

/-- Loads that do not fit report the first address that is out of range. -/
theorem loadBytes_fault (m : Cells) (n : Nat) : ∀ a, 0x1000 < a + n → 0 < n →
    loadBytes m a n = .error (.addrFault (max a 0x1000)) := by
  induction n with
  | zero => omega
  | succ n ih =>
    intro a h _
    by_cases ha : a < 0x1000
    · have e : max (a + 1) 0x1000 = max a 0x1000 := by omega
      rw [loadBytes, memRead_ok ha]
      simp only [ih (a + 1) (by omega) (by omega), e]
    · have e : max a 0x1000 = a := by omega
      simp [loadBytes, memRead_fault (m := m) (a := a) (by omega), e]

end Sys2Proof.Machine
end

