-- ==== Sys2Proof/Laws/State.lean ====
section
/-! SUPPORT. One lemma per field per named update of the state, each true by rfl, so that no later proof unfolds a record update; the same for the read accessors (`reg`, `memByte`, `pixel`) and the samples of the input ports. -/

namespace Sys2Proof.Machine

@[simp] theorem State.setVf_eq (s : State) (b : Byte) : s.setVf b = s.setReg vf b := rfl
@[simp] theorem State.skipIf_eq (s : State) (c : Bool) : s.skipIf c = s.setPc (if c then s.pc + 2 else s.pc) := rfl

@[simp] theorem State.setReg_pc (s : State) (x : Nibble) (b : Byte) : (s.setReg x b).pc = s.pc := rfl
@[simp] theorem State.setReg_i (s : State) (x : Nibble) (b : Byte) : (s.setReg x b).i = s.i := rfl
@[simp] theorem State.setReg_mem (s : State) (x : Nibble) (b : Byte) : (s.setReg x b).mem = s.mem := rfl
@[simp] theorem State.setReg_disp (s : State) (x : Nibble) (b : Byte) : (s.setReg x b).disp = s.disp := rfl
@[simp] theorem State.setReg_stack (s : State) (x : Nibble) (b : Byte) : (s.setReg x b).stack = s.stack := rfl
@[simp] theorem State.setReg_sp (s : State) (x : Nibble) (b : Byte) : (s.setReg x b).sp = s.sp := rfl
@[simp] theorem State.setReg_dt (s : State) (x : Nibble) (b : Byte) : (s.setReg x b).dt = s.dt := rfl
@[simp] theorem State.setReg_st (s : State) (x : Nibble) (b : Byte) : (s.setReg x b).st = s.st := rfl
@[simp] theorem State.setReg_drem (s : State) (x : Nibble) (b : Byte) : (s.setReg x b).drem = s.drem := rfl
@[simp] theorem State.setReg_srem (s : State) (x : Nibble) (b : Byte) : (s.setReg x b).srem = s.srem := rfl
@[simp] theorem State.setReg_lastKeyState (s : State) (x : Nibble) (b : Byte) : (s.setReg x b).lastKeyState = s.lastKeyState := rfl
@[simp] theorem State.setReg_sndOn (s : State) (x : Nibble) (b : Byte) : (s.setReg x b).sndOn = s.sndOn := rfl
@[simp] theorem State.setReg_fault (s : State) (x : Nibble) (b : Byte) : (s.setReg x b).fault = s.fault := rfl
@[simp] theorem State.setReg_cfgShift (s : State) (x : Nibble) (b : Byte) : (s.setReg x b).cfgShift = s.cfgShift := rfl
@[simp] theorem State.setReg_cfgJump (s : State) (x : Nibble) (b : Byte) : (s.setReg x b).cfgJump = s.cfgJump := rfl
@[simp] theorem State.setReg_cfgLdst (s : State) (x : Nibble) (b : Byte) : (s.setReg x b).cfgLdst = s.cfgLdst := rfl
@[simp] theorem State.setReg_fr (s : State) (x : Nibble) (b : Byte) : (s.setReg x b).fr = s.fr := rfl
@[simp] theorem State.setReg_par (s : State) (x : Nibble) (b : Byte) : (s.setReg x b).par = s.par := rfl
@[simp] theorem State.setReg_keyTape (s : State) (x : Nibble) (b : Byte) : (s.setReg x b).keyTape = s.keyTape := rfl
@[simp] theorem State.setReg_randTape (s : State) (x : Nibble) (b : Byte) : (s.setReg x b).randTape = s.randTape := rfl
@[simp] theorem State.setReg_draws (s : State) (x : Nibble) (b : Byte) : (s.setReg x b).draws = s.draws := rfl
@[simp] theorem State.setReg_out (s : State) (x : Nibble) (b : Byte) : (s.setReg x b).out = s.out := rfl
@[simp] theorem State.setReg_memByte (s : State) (x : Nibble) (b : Byte) (k : Nat) : memByte (s.setReg x b) k = memByte s k := rfl
@[simp] theorem State.setReg_pixel (s : State) (x : Nibble) (b : Byte) (c r : Nat) : pixel (s.setReg x b) c r = pixel s c r := rfl
@[simp] theorem State.setReg_nextKeys (s : State) (x : Nibble) (b : Byte) : (s.setReg x b).nextKeys = s.nextKeys := rfl
@[simp] theorem State.setReg_nextRand (s : State) (x : Nibble) (b : Byte) : (s.setReg x b).nextRand = s.nextRand := rfl

@[simp] theorem State.setRegs_pc (s : State) (bs : List Byte) : (s.setRegs bs).pc = s.pc := rfl
@[simp] theorem State.setRegs_i (s : State) (bs : List Byte) : (s.setRegs bs).i = s.i := rfl
@[simp] theorem State.setRegs_mem (s : State) (bs : List Byte) : (s.setRegs bs).mem = s.mem := rfl
@[simp] theorem State.setRegs_disp (s : State) (bs : List Byte) : (s.setRegs bs).disp = s.disp := rfl
@[simp] theorem State.setRegs_stack (s : State) (bs : List Byte) : (s.setRegs bs).stack = s.stack := rfl
@[simp] theorem State.setRegs_sp (s : State) (bs : List Byte) : (s.setRegs bs).sp = s.sp := rfl
@[simp] theorem State.setRegs_dt (s : State) (bs : List Byte) : (s.setRegs bs).dt = s.dt := rfl
@[simp] theorem State.setRegs_st (s : State) (bs : List Byte) : (s.setRegs bs).st = s.st := rfl
@[simp] theorem State.setRegs_drem (s : State) (bs : List Byte) : (s.setRegs bs).drem = s.drem := rfl
@[simp] theorem State.setRegs_srem (s : State) (bs : List Byte) : (s.setRegs bs).srem = s.srem := rfl
@[simp] theorem State.setRegs_lastKeyState (s : State) (bs : List Byte) : (s.setRegs bs).lastKeyState = s.lastKeyState := rfl
@[simp] theorem State.setRegs_sndOn (s : State) (bs : List Byte) : (s.setRegs bs).sndOn = s.sndOn := rfl
@[simp] theorem State.setRegs_fault (s : State) (bs : List Byte) : (s.setRegs bs).fault = s.fault := rfl
@[simp] theorem State.setRegs_cfgShift (s : State) (bs : List Byte) : (s.setRegs bs).cfgShift = s.cfgShift := rfl
@[simp] theorem State.setRegs_cfgJump (s : State) (bs : List Byte) : (s.setRegs bs).cfgJump = s.cfgJump := rfl
@[simp] theorem State.setRegs_cfgLdst (s : State) (bs : List Byte) : (s.setRegs bs).cfgLdst = s.cfgLdst := rfl
@[simp] theorem State.setRegs_fr (s : State) (bs : List Byte) : (s.setRegs bs).fr = s.fr := rfl
@[simp] theorem State.setRegs_par (s : State) (bs : List Byte) : (s.setRegs bs).par = s.par := rfl
@[simp] theorem State.setRegs_keyTape (s : State) (bs : List Byte) : (s.setRegs bs).keyTape = s.keyTape := rfl
@[simp] theorem State.setRegs_randTape (s : State) (bs : List Byte) : (s.setRegs bs).randTape = s.randTape := rfl
@[simp] theorem State.setRegs_draws (s : State) (bs : List Byte) : (s.setRegs bs).draws = s.draws := rfl
@[simp] theorem State.setRegs_out (s : State) (bs : List Byte) : (s.setRegs bs).out = s.out := rfl
@[simp] theorem State.setRegs_memByte (s : State) (bs : List Byte) (k : Nat) : memByte (s.setRegs bs) k = memByte s k := rfl
@[simp] theorem State.setRegs_pixel (s : State) (bs : List Byte) (c r : Nat) : pixel (s.setRegs bs) c r = pixel s c r := rfl
@[simp] theorem State.setRegs_nextKeys (s : State) (bs : List Byte) : (s.setRegs bs).nextKeys = s.nextKeys := rfl
@[simp] theorem State.setRegs_nextRand (s : State) (bs : List Byte) : (s.setRegs bs).nextRand = s.nextRand := rfl

@[simp] theorem State.setPc_v (s : State) (a : Half) : (s.setPc a).v = s.v := rfl
@[simp] theorem State.setPc_pc (s : State) (a : Half) : (s.setPc a).pc = a := rfl
@[simp] theorem State.setPc_i (s : State) (a : Half) : (s.setPc a).i = s.i := rfl
@[simp] theorem State.setPc_mem (s : State) (a : Half) : (s.setPc a).mem = s.mem := rfl
@[simp] theorem State.setPc_disp (s : State) (a : Half) : (s.setPc a).disp = s.disp := rfl
@[simp] theorem State.setPc_stack (s : State) (a : Half) : (s.setPc a).stack = s.stack := rfl
@[simp] theorem State.setPc_sp (s : State) (a : Half) : (s.setPc a).sp = s.sp := rfl
@[simp] theorem State.setPc_dt (s : State) (a : Half) : (s.setPc a).dt = s.dt := rfl
@[simp] theorem State.setPc_st (s : State) (a : Half) : (s.setPc a).st = s.st := rfl
@[simp] theorem State.setPc_drem (s : State) (a : Half) : (s.setPc a).drem = s.drem := rfl
@[simp] theorem State.setPc_srem (s : State) (a : Half) : (s.setPc a).srem = s.srem := rfl
@[simp] theorem State.setPc_lastKeyState (s : State) (a : Half) : (s.setPc a).lastKeyState = s.lastKeyState := rfl
@[simp] theorem State.setPc_sndOn (s : State) (a : Half) : (s.setPc a).sndOn = s.sndOn := rfl
@[simp] theorem State.setPc_fault (s : State) (a : Half) : (s.setPc a).fault = s.fault := rfl
@[simp] theorem State.setPc_cfgShift (s : State) (a : Half) : (s.setPc a).cfgShift = s.cfgShift := rfl
@[simp] theorem State.setPc_cfgJump (s : State) (a : Half) : (s.setPc a).cfgJump = s.cfgJump := rfl
@[simp] theorem State.setPc_cfgLdst (s : State) (a : Half) : (s.setPc a).cfgLdst = s.cfgLdst := rfl
@[simp] theorem State.setPc_fr (s : State) (a : Half) : (s.setPc a).fr = s.fr := rfl
@[simp] theorem State.setPc_par (s : State) (a : Half) : (s.setPc a).par = s.par := rfl
@[simp] theorem State.setPc_keyTape (s : State) (a : Half) : (s.setPc a).keyTape = s.keyTape := rfl
@[simp] theorem State.setPc_randTape (s : State) (a : Half) : (s.setPc a).randTape = s.randTape := rfl
@[simp] theorem State.setPc_draws (s : State) (a : Half) : (s.setPc a).draws = s.draws := rfl
@[simp] theorem State.setPc_out (s : State) (a : Half) : (s.setPc a).out = s.out := rfl
@[simp] theorem State.setPc_reg (s : State) (a : Half) (r : Nibble) : (s.setPc a).reg r = s.reg r := rfl
@[simp] theorem State.setPc_memByte (s : State) (a : Half) (k : Nat) : memByte (s.setPc a) k = memByte s k := rfl
@[simp] theorem State.setPc_pixel (s : State) (a : Half) (c r : Nat) : pixel (s.setPc a) c r = pixel s c r := rfl
@[simp] theorem State.setPc_nextKeys (s : State) (a : Half) : (s.setPc a).nextKeys = s.nextKeys := rfl
@[simp] theorem State.setPc_nextRand (s : State) (a : Half) : (s.setPc a).nextRand = s.nextRand := rfl

@[simp] theorem State.setI_v (s : State) (a : Half) : (s.setI a).v = s.v := rfl
@[simp] theorem State.setI_pc (s : State) (a : Half) : (s.setI a).pc = s.pc := rfl
@[simp] theorem State.setI_i (s : State) (a : Half) : (s.setI a).i = a := rfl
@[simp] theorem State.setI_mem (s : State) (a : Half) : (s.setI a).mem = s.mem := rfl
@[simp] theorem State.setI_disp (s : State) (a : Half) : (s.setI a).disp = s.disp := rfl
@[simp] theorem State.setI_stack (s : State) (a : Half) : (s.setI a).stack = s.stack := rfl
@[simp] theorem State.setI_sp (s : State) (a : Half) : (s.setI a).sp = s.sp := rfl
@[simp] theorem State.setI_dt (s : State) (a : Half) : (s.setI a).dt = s.dt := rfl
@[simp] theorem State.setI_st (s : State) (a : Half) : (s.setI a).st = s.st := rfl
@[simp] theorem State.setI_drem (s : State) (a : Half) : (s.setI a).drem = s.drem := rfl
@[simp] theorem State.setI_srem (s : State) (a : Half) : (s.setI a).srem = s.srem := rfl
@[simp] theorem State.setI_lastKeyState (s : State) (a : Half) : (s.setI a).lastKeyState = s.lastKeyState := rfl
@[simp] theorem State.setI_sndOn (s : State) (a : Half) : (s.setI a).sndOn = s.sndOn := rfl
@[simp] theorem State.setI_fault (s : State) (a : Half) : (s.setI a).fault = s.fault := rfl
@[simp] theorem State.setI_cfgShift (s : State) (a : Half) : (s.setI a).cfgShift = s.cfgShift := rfl
@[simp] theorem State.setI_cfgJump (s : State) (a : Half) : (s.setI a).cfgJump = s.cfgJump := rfl
@[simp] theorem State.setI_cfgLdst (s : State) (a : Half) : (s.setI a).cfgLdst = s.cfgLdst := rfl
@[simp] theorem State.setI_fr (s : State) (a : Half) : (s.setI a).fr = s.fr := rfl
@[simp] theorem State.setI_par (s : State) (a : Half) : (s.setI a).par = s.par := rfl
@[simp] theorem State.setI_keyTape (s : State) (a : Half) : (s.setI a).keyTape = s.keyTape := rfl
@[simp] theorem State.setI_randTape (s : State) (a : Half) : (s.setI a).randTape = s.randTape := rfl
@[simp] theorem State.setI_draws (s : State) (a : Half) : (s.setI a).draws = s.draws := rfl
@[simp] theorem State.setI_out (s : State) (a : Half) : (s.setI a).out = s.out := rfl
@[simp] theorem State.setI_reg (s : State) (a : Half) (r : Nibble) : (s.setI a).reg r = s.reg r := rfl
@[simp] theorem State.setI_memByte (s : State) (a : Half) (k : Nat) : memByte (s.setI a) k = memByte s k := rfl
@[simp] theorem State.setI_pixel (s : State) (a : Half) (c r : Nat) : pixel (s.setI a) c r = pixel s c r := rfl
@[simp] theorem State.setI_nextKeys (s : State) (a : Half) : (s.setI a).nextKeys = s.nextKeys := rfl
@[simp] theorem State.setI_nextRand (s : State) (a : Half) : (s.setI a).nextRand = s.nextRand := rfl

@[simp] theorem State.setDt_v (s : State) (b : Byte) : (s.setDt b).v = s.v := rfl
@[simp] theorem State.setDt_pc (s : State) (b : Byte) : (s.setDt b).pc = s.pc := rfl
@[simp] theorem State.setDt_i (s : State) (b : Byte) : (s.setDt b).i = s.i := rfl
@[simp] theorem State.setDt_mem (s : State) (b : Byte) : (s.setDt b).mem = s.mem := rfl
@[simp] theorem State.setDt_disp (s : State) (b : Byte) : (s.setDt b).disp = s.disp := rfl
@[simp] theorem State.setDt_stack (s : State) (b : Byte) : (s.setDt b).stack = s.stack := rfl
@[simp] theorem State.setDt_sp (s : State) (b : Byte) : (s.setDt b).sp = s.sp := rfl
@[simp] theorem State.setDt_dt (s : State) (b : Byte) : (s.setDt b).dt = b := rfl
@[simp] theorem State.setDt_st (s : State) (b : Byte) : (s.setDt b).st = s.st := rfl
@[simp] theorem State.setDt_drem (s : State) (b : Byte) : (s.setDt b).drem = s.drem := rfl
@[simp] theorem State.setDt_srem (s : State) (b : Byte) : (s.setDt b).srem = s.srem := rfl
@[simp] theorem State.setDt_lastKeyState (s : State) (b : Byte) : (s.setDt b).lastKeyState = s.lastKeyState := rfl
@[simp] theorem State.setDt_sndOn (s : State) (b : Byte) : (s.setDt b).sndOn = s.sndOn := rfl
@[simp] theorem State.setDt_fault (s : State) (b : Byte) : (s.setDt b).fault = s.fault := rfl
@[simp] theorem State.setDt_cfgShift (s : State) (b : Byte) : (s.setDt b).cfgShift = s.cfgShift := rfl
@[simp] theorem State.setDt_cfgJump (s : State) (b : Byte) : (s.setDt b).cfgJump = s.cfgJump := rfl
@[simp] theorem State.setDt_cfgLdst (s : State) (b : Byte) : (s.setDt b).cfgLdst = s.cfgLdst := rfl
@[simp] theorem State.setDt_fr (s : State) (b : Byte) : (s.setDt b).fr = s.fr := rfl
@[simp] theorem State.setDt_par (s : State) (b : Byte) : (s.setDt b).par = s.par := rfl
@[simp] theorem State.setDt_keyTape (s : State) (b : Byte) : (s.setDt b).keyTape = s.keyTape := rfl
@[simp] theorem State.setDt_randTape (s : State) (b : Byte) : (s.setDt b).randTape = s.randTape := rfl
@[simp] theorem State.setDt_draws (s : State) (b : Byte) : (s.setDt b).draws = s.draws := rfl
@[simp] theorem State.setDt_out (s : State) (b : Byte) : (s.setDt b).out = s.out := rfl
@[simp] theorem State.setDt_reg (s : State) (b : Byte) (r : Nibble) : (s.setDt b).reg r = s.reg r := rfl
@[simp] theorem State.setDt_memByte (s : State) (b : Byte) (k : Nat) : memByte (s.setDt b) k = memByte s k := rfl
@[simp] theorem State.setDt_pixel (s : State) (b : Byte) (c r : Nat) : pixel (s.setDt b) c r = pixel s c r := rfl
@[simp] theorem State.setDt_nextKeys (s : State) (b : Byte) : (s.setDt b).nextKeys = s.nextKeys := rfl
@[simp] theorem State.setDt_nextRand (s : State) (b : Byte) : (s.setDt b).nextRand = s.nextRand := rfl

@[simp] theorem State.setSt_v (s : State) (b : Byte) : (s.setSt b).v = s.v := rfl
@[simp] theorem State.setSt_pc (s : State) (b : Byte) : (s.setSt b).pc = s.pc := rfl
@[simp] theorem State.setSt_i (s : State) (b : Byte) : (s.setSt b).i = s.i := rfl
@[simp] theorem State.setSt_mem (s : State) (b : Byte) : (s.setSt b).mem = s.mem := rfl
@[simp] theorem State.setSt_disp (s : State) (b : Byte) : (s.setSt b).disp = s.disp := rfl
@[simp] theorem State.setSt_stack (s : State) (b : Byte) : (s.setSt b).stack = s.stack := rfl
@[simp] theorem State.setSt_sp (s : State) (b : Byte) : (s.setSt b).sp = s.sp := rfl
@[simp] theorem State.setSt_dt (s : State) (b : Byte) : (s.setSt b).dt = s.dt := rfl
@[simp] theorem State.setSt_st (s : State) (b : Byte) : (s.setSt b).st = b := rfl
@[simp] theorem State.setSt_drem (s : State) (b : Byte) : (s.setSt b).drem = s.drem := rfl
@[simp] theorem State.setSt_srem (s : State) (b : Byte) : (s.setSt b).srem = s.srem := rfl
@[simp] theorem State.setSt_lastKeyState (s : State) (b : Byte) : (s.setSt b).lastKeyState = s.lastKeyState := rfl
@[simp] theorem State.setSt_sndOn (s : State) (b : Byte) : (s.setSt b).sndOn = s.sndOn := rfl
@[simp] theorem State.setSt_fault (s : State) (b : Byte) : (s.setSt b).fault = s.fault := rfl
@[simp] theorem State.setSt_cfgShift (s : State) (b : Byte) : (s.setSt b).cfgShift = s.cfgShift := rfl
@[simp] theorem State.setSt_cfgJump (s : State) (b : Byte) : (s.setSt b).cfgJump = s.cfgJump := rfl
@[simp] theorem State.setSt_cfgLdst (s : State) (b : Byte) : (s.setSt b).cfgLdst = s.cfgLdst := rfl
@[simp] theorem State.setSt_fr (s : State) (b : Byte) : (s.setSt b).fr = s.fr := rfl
@[simp] theorem State.setSt_par (s : State) (b : Byte) : (s.setSt b).par = s.par := rfl
@[simp] theorem State.setSt_keyTape (s : State) (b : Byte) : (s.setSt b).keyTape = s.keyTape := rfl
@[simp] theorem State.setSt_randTape (s : State) (b : Byte) : (s.setSt b).randTape = s.randTape := rfl
@[simp] theorem State.setSt_draws (s : State) (b : Byte) : (s.setSt b).draws = s.draws := rfl
@[simp] theorem State.setSt_out (s : State) (b : Byte) : (s.setSt b).out = s.out := rfl
@[simp] theorem State.setSt_reg (s : State) (b : Byte) (r : Nibble) : (s.setSt b).reg r = s.reg r := rfl
@[simp] theorem State.setSt_memByte (s : State) (b : Byte) (k : Nat) : memByte (s.setSt b) k = memByte s k := rfl
@[simp] theorem State.setSt_pixel (s : State) (b : Byte) (c r : Nat) : pixel (s.setSt b) c r = pixel s c r := rfl
@[simp] theorem State.setSt_nextKeys (s : State) (b : Byte) : (s.setSt b).nextKeys = s.nextKeys := rfl
@[simp] theorem State.setSt_nextRand (s : State) (b : Byte) : (s.setSt b).nextRand = s.nextRand := rfl

@[simp] theorem State.setMem_v (s : State) (m : Cells) : (s.setMem m).v = s.v := rfl
@[simp] theorem State.setMem_pc (s : State) (m : Cells) : (s.setMem m).pc = s.pc := rfl
@[simp] theorem State.setMem_i (s : State) (m : Cells) : (s.setMem m).i = s.i := rfl
@[simp] theorem State.setMem_mem (s : State) (m : Cells) : (s.setMem m).mem = m := rfl
@[simp] theorem State.setMem_disp (s : State) (m : Cells) : (s.setMem m).disp = s.disp := rfl
@[simp] theorem State.setMem_stack (s : State) (m : Cells) : (s.setMem m).stack = s.stack := rfl
@[simp] theorem State.setMem_sp (s : State) (m : Cells) : (s.setMem m).sp = s.sp := rfl
@[simp] theorem State.setMem_dt (s : State) (m : Cells) : (s.setMem m).dt = s.dt := rfl
@[simp] theorem State.setMem_st (s : State) (m : Cells) : (s.setMem m).st = s.st := rfl
@[simp] theorem State.setMem_drem (s : State) (m : Cells) : (s.setMem m).drem = s.drem := rfl
@[simp] theorem State.setMem_srem (s : State) (m : Cells) : (s.setMem m).srem = s.srem := rfl
@[simp] theorem State.setMem_lastKeyState (s : State) (m : Cells) : (s.setMem m).lastKeyState = s.lastKeyState := rfl
@[simp] theorem State.setMem_sndOn (s : State) (m : Cells) : (s.setMem m).sndOn = s.sndOn := rfl
@[simp] theorem State.setMem_fault (s : State) (m : Cells) : (s.setMem m).fault = s.fault := rfl
@[simp] theorem State.setMem_cfgShift (s : State) (m : Cells) : (s.setMem m).cfgShift = s.cfgShift := rfl
@[simp] theorem State.setMem_cfgJump (s : State) (m : Cells) : (s.setMem m).cfgJump = s.cfgJump := rfl
@[simp] theorem State.setMem_cfgLdst (s : State) (m : Cells) : (s.setMem m).cfgLdst = s.cfgLdst := rfl
@[simp] theorem State.setMem_fr (s : State) (m : Cells) : (s.setMem m).fr = s.fr := rfl
@[simp] theorem State.setMem_par (s : State) (m : Cells) : (s.setMem m).par = s.par := rfl
@[simp] theorem State.setMem_keyTape (s : State) (m : Cells) : (s.setMem m).keyTape = s.keyTape := rfl
@[simp] theorem State.setMem_randTape (s : State) (m : Cells) : (s.setMem m).randTape = s.randTape := rfl
@[simp] theorem State.setMem_draws (s : State) (m : Cells) : (s.setMem m).draws = s.draws := rfl
@[simp] theorem State.setMem_out (s : State) (m : Cells) : (s.setMem m).out = s.out := rfl
@[simp] theorem State.setMem_reg (s : State) (m : Cells) (r : Nibble) : (s.setMem m).reg r = s.reg r := rfl
@[simp] theorem State.setMem_pixel (s : State) (m : Cells) (c r : Nat) : pixel (s.setMem m) c r = pixel s c r := rfl
@[simp] theorem State.setMem_nextKeys (s : State) (m : Cells) : (s.setMem m).nextKeys = s.nextKeys := rfl
@[simp] theorem State.setMem_nextRand (s : State) (m : Cells) : (s.setMem m).nextRand = s.nextRand := rfl

@[simp] theorem State.setDisp_v (s : State) (d : Cells) : (s.setDisp d).v = s.v := rfl
@[simp] theorem State.setDisp_pc (s : State) (d : Cells) : (s.setDisp d).pc = s.pc := rfl
@[simp] theorem State.setDisp_i (s : State) (d : Cells) : (s.setDisp d).i = s.i := rfl
@[simp] theorem State.setDisp_mem (s : State) (d : Cells) : (s.setDisp d).mem = s.mem := rfl
@[simp] theorem State.setDisp_disp (s : State) (d : Cells) : (s.setDisp d).disp = d := rfl
@[simp] theorem State.setDisp_stack (s : State) (d : Cells) : (s.setDisp d).stack = s.stack := rfl
@[simp] theorem State.setDisp_sp (s : State) (d : Cells) : (s.setDisp d).sp = s.sp := rfl
@[simp] theorem State.setDisp_dt (s : State) (d : Cells) : (s.setDisp d).dt = s.dt := rfl
@[simp] theorem State.setDisp_st (s : State) (d : Cells) : (s.setDisp d).st = s.st := rfl
@[simp] theorem State.setDisp_drem (s : State) (d : Cells) : (s.setDisp d).drem = s.drem := rfl
@[simp] theorem State.setDisp_srem (s : State) (d : Cells) : (s.setDisp d).srem = s.srem := rfl
@[simp] theorem State.setDisp_lastKeyState (s : State) (d : Cells) : (s.setDisp d).lastKeyState = s.lastKeyState := rfl
@[simp] theorem State.setDisp_sndOn (s : State) (d : Cells) : (s.setDisp d).sndOn = s.sndOn := rfl
@[simp] theorem State.setDisp_fault (s : State) (d : Cells) : (s.setDisp d).fault = s.fault := rfl
@[simp] theorem State.setDisp_cfgShift (s : State) (d : Cells) : (s.setDisp d).cfgShift = s.cfgShift := rfl
@[simp] theorem State.setDisp_cfgJump (s : State) (d : Cells) : (s.setDisp d).cfgJump = s.cfgJump := rfl
@[simp] theorem State.setDisp_cfgLdst (s : State) (d : Cells) : (s.setDisp d).cfgLdst = s.cfgLdst := rfl
@[simp] theorem State.setDisp_fr (s : State) (d : Cells) : (s.setDisp d).fr = s.fr := rfl
@[simp] theorem State.setDisp_par (s : State) (d : Cells) : (s.setDisp d).par = s.par := rfl
@[simp] theorem State.setDisp_keyTape (s : State) (d : Cells) : (s.setDisp d).keyTape = s.keyTape := rfl
@[simp] theorem State.setDisp_randTape (s : State) (d : Cells) : (s.setDisp d).randTape = s.randTape := rfl
@[simp] theorem State.setDisp_draws (s : State) (d : Cells) : (s.setDisp d).draws = s.draws := rfl
@[simp] theorem State.setDisp_out (s : State) (d : Cells) : (s.setDisp d).out = s.out := rfl
@[simp] theorem State.setDisp_reg (s : State) (d : Cells) (r : Nibble) : (s.setDisp d).reg r = s.reg r := rfl
@[simp] theorem State.setDisp_memByte (s : State) (d : Cells) (k : Nat) : memByte (s.setDisp d) k = memByte s k := rfl
@[simp] theorem State.setDisp_nextKeys (s : State) (d : Cells) : (s.setDisp d).nextKeys = s.nextKeys := rfl
@[simp] theorem State.setDisp_nextRand (s : State) (d : Cells) : (s.setDisp d).nextRand = s.nextRand := rfl

@[simp] theorem State.emit_v (s : State) (e : Event) : (s.emit e).v = s.v := rfl
@[simp] theorem State.emit_pc (s : State) (e : Event) : (s.emit e).pc = s.pc := rfl
@[simp] theorem State.emit_i (s : State) (e : Event) : (s.emit e).i = s.i := rfl
@[simp] theorem State.emit_mem (s : State) (e : Event) : (s.emit e).mem = s.mem := rfl
@[simp] theorem State.emit_disp (s : State) (e : Event) : (s.emit e).disp = s.disp := rfl
@[simp] theorem State.emit_stack (s : State) (e : Event) : (s.emit e).stack = s.stack := rfl
@[simp] theorem State.emit_sp (s : State) (e : Event) : (s.emit e).sp = s.sp := rfl
@[simp] theorem State.emit_dt (s : State) (e : Event) : (s.emit e).dt = s.dt := rfl
@[simp] theorem State.emit_st (s : State) (e : Event) : (s.emit e).st = s.st := rfl
@[simp] theorem State.emit_drem (s : State) (e : Event) : (s.emit e).drem = s.drem := rfl
@[simp] theorem State.emit_srem (s : State) (e : Event) : (s.emit e).srem = s.srem := rfl
@[simp] theorem State.emit_lastKeyState (s : State) (e : Event) : (s.emit e).lastKeyState = s.lastKeyState := rfl
@[simp] theorem State.emit_sndOn (s : State) (e : Event) : (s.emit e).sndOn = s.sndOn := rfl
@[simp] theorem State.emit_fault (s : State) (e : Event) : (s.emit e).fault = s.fault := rfl
@[simp] theorem State.emit_cfgShift (s : State) (e : Event) : (s.emit e).cfgShift = s.cfgShift := rfl
@[simp] theorem State.emit_cfgJump (s : State) (e : Event) : (s.emit e).cfgJump = s.cfgJump := rfl
@[simp] theorem State.emit_cfgLdst (s : State) (e : Event) : (s.emit e).cfgLdst = s.cfgLdst := rfl
@[simp] theorem State.emit_fr (s : State) (e : Event) : (s.emit e).fr = s.fr := rfl
@[simp] theorem State.emit_par (s : State) (e : Event) : (s.emit e).par = s.par := rfl
@[simp] theorem State.emit_keyTape (s : State) (e : Event) : (s.emit e).keyTape = s.keyTape := rfl
@[simp] theorem State.emit_randTape (s : State) (e : Event) : (s.emit e).randTape = s.randTape := rfl
@[simp] theorem State.emit_draws (s : State) (e : Event) : (s.emit e).draws = s.draws := rfl
@[simp] theorem State.emit_out (s : State) (e : Event) : (s.emit e).out = s.out ++ [e] := rfl
@[simp] theorem State.emit_reg (s : State) (e : Event) (r : Nibble) : (s.emit e).reg r = s.reg r := rfl
@[simp] theorem State.emit_memByte (s : State) (e : Event) (k : Nat) : memByte (s.emit e) k = memByte s k := rfl
@[simp] theorem State.emit_pixel (s : State) (e : Event) (c r : Nat) : pixel (s.emit e) c r = pixel s c r := rfl
@[simp] theorem State.emit_nextKeys (s : State) (e : Event) : (s.emit e).nextKeys = s.nextKeys := rfl
@[simp] theorem State.emit_nextRand (s : State) (e : Event) : (s.emit e).nextRand = s.nextRand := rfl

@[simp] theorem State.polled_v (s : State) : (s.polled).v = s.v := rfl
@[simp] theorem State.polled_pc (s : State) : (s.polled).pc = s.pc := rfl
@[simp] theorem State.polled_i (s : State) : (s.polled).i = s.i := rfl
@[simp] theorem State.polled_mem (s : State) : (s.polled).mem = s.mem := rfl
@[simp] theorem State.polled_disp (s : State) : (s.polled).disp = s.disp := rfl
@[simp] theorem State.polled_stack (s : State) : (s.polled).stack = s.stack := rfl
@[simp] theorem State.polled_sp (s : State) : (s.polled).sp = s.sp := rfl
@[simp] theorem State.polled_dt (s : State) : (s.polled).dt = s.dt := rfl
@[simp] theorem State.polled_st (s : State) : (s.polled).st = s.st := rfl
@[simp] theorem State.polled_drem (s : State) : (s.polled).drem = s.drem := rfl
@[simp] theorem State.polled_srem (s : State) : (s.polled).srem = s.srem := rfl
@[simp] theorem State.polled_lastKeyState (s : State) : (s.polled).lastKeyState = s.lastKeyState := rfl
@[simp] theorem State.polled_sndOn (s : State) : (s.polled).sndOn = s.sndOn := rfl
@[simp] theorem State.polled_fault (s : State) : (s.polled).fault = s.fault := rfl
@[simp] theorem State.polled_cfgShift (s : State) : (s.polled).cfgShift = s.cfgShift := rfl
@[simp] theorem State.polled_cfgJump (s : State) : (s.polled).cfgJump = s.cfgJump := rfl
@[simp] theorem State.polled_cfgLdst (s : State) : (s.polled).cfgLdst = s.cfgLdst := rfl
@[simp] theorem State.polled_fr (s : State) : (s.polled).fr = s.fr := rfl
@[simp] theorem State.polled_par (s : State) : (s.polled).par = s.par := rfl
@[simp] theorem State.polled_keyTape (s : State) : (s.polled).keyTape = s.keyTape.tail := rfl
@[simp] theorem State.polled_randTape (s : State) : (s.polled).randTape = s.randTape := rfl
@[simp] theorem State.polled_draws (s : State) : (s.polled).draws = s.draws + 1 := rfl
@[simp] theorem State.polled_out (s : State) : (s.polled).out = s.out ++ [.poll] := rfl
@[simp] theorem State.polled_reg (s : State) (r : Nibble) : (s.polled).reg r = s.reg r := rfl
@[simp] theorem State.polled_memByte (s : State) (k : Nat) : memByte (s.polled) k = memByte s k := rfl
@[simp] theorem State.polled_pixel (s : State) (c r : Nat) : pixel (s.polled) c r = pixel s c r := rfl

@[simp] theorem State.randed_v (s : State) : (s.randed).v = s.v := rfl
@[simp] theorem State.randed_pc (s : State) : (s.randed).pc = s.pc := rfl
@[simp] theorem State.randed_i (s : State) : (s.randed).i = s.i := rfl
@[simp] theorem State.randed_mem (s : State) : (s.randed).mem = s.mem := rfl
@[simp] theorem State.randed_disp (s : State) : (s.randed).disp = s.disp := rfl
@[simp] theorem State.randed_stack (s : State) : (s.randed).stack = s.stack := rfl
@[simp] theorem State.randed_sp (s : State) : (s.randed).sp = s.sp := rfl
@[simp] theorem State.randed_dt (s : State) : (s.randed).dt = s.dt := rfl
@[simp] theorem State.randed_st (s : State) : (s.randed).st = s.st := rfl
@[simp] theorem State.randed_drem (s : State) : (s.randed).drem = s.drem := rfl
@[simp] theorem State.randed_srem (s : State) : (s.randed).srem = s.srem := rfl
@[simp] theorem State.randed_lastKeyState (s : State) : (s.randed).lastKeyState = s.lastKeyState := rfl
@[simp] theorem State.randed_sndOn (s : State) : (s.randed).sndOn = s.sndOn := rfl
@[simp] theorem State.randed_fault (s : State) : (s.randed).fault = s.fault := rfl
@[simp] theorem State.randed_cfgShift (s : State) : (s.randed).cfgShift = s.cfgShift := rfl
@[simp] theorem State.randed_cfgJump (s : State) : (s.randed).cfgJump = s.cfgJump := rfl
@[simp] theorem State.randed_cfgLdst (s : State) : (s.randed).cfgLdst = s.cfgLdst := rfl
@[simp] theorem State.randed_fr (s : State) : (s.randed).fr = s.fr := rfl
@[simp] theorem State.randed_par (s : State) : (s.randed).par = s.par := rfl
@[simp] theorem State.randed_keyTape (s : State) : (s.randed).keyTape = s.keyTape := rfl
@[simp] theorem State.randed_randTape (s : State) : (s.randed).randTape = s.randTape.tail := rfl
@[simp] theorem State.randed_draws (s : State) : (s.randed).draws = s.draws + 1 := rfl
@[simp] theorem State.randed_out (s : State) : (s.randed).out = s.out ++ [.rand] := rfl
@[simp] theorem State.randed_reg (s : State) (r : Nibble) : (s.randed).reg r = s.reg r := rfl
@[simp] theorem State.randed_memByte (s : State) (k : Nat) : memByte (s.randed) k = memByte s k := rfl
@[simp] theorem State.randed_pixel (s : State) (c r : Nat) : pixel (s.randed) c r = pixel s c r := rfl

/-- Reading a register after writing one. -/
theorem State.reg_setReg (s : State) (x y : Nibble) (b : Byte) :
    (s.setReg x b).reg y = if y = x then b else s.reg y := by
  simp only [State.reg, State.setReg, Vector.getElem_set]
  by_cases h : x.toNat = y.toNat
  · have : y = x := (BitVec.eq_of_toNat_eq h).symm
    simp [this]
  · have : y ≠ x := fun e => h (by rw [e])
    simp [h, this]

@[simp] theorem State.reg_setReg_self (s : State) (x : Nibble) (b : Byte) : (s.setReg x b).reg x = b := by
  simp [State.reg_setReg]

@[simp] theorem State.reg_setReg_ne (s : State) {x y : Nibble} (b : Byte) (h : y ≠ x) :
    (s.setReg x b).reg y = s.reg y := by
  simp [State.reg_setReg, h]

/-- Ascending register writes: the written registers hold the bytes, the others are as before. -/
theorem overwriteRegs_getElem (bs : List Byte) : ∀ (v : Vector Byte 16) (k j : Nat) (hj : j < 16),
    (overwriteRegs v k bs)[j] = if k ≤ j ∧ j < k + bs.length then bs.getD (j - k) 0 else v[j] := by
  induction bs with
  | nil =>
    intro v k j hj
    have : ¬(k ≤ j ∧ j < k + ([] : List Byte).length) := by simp
    rw [if_neg this]; rfl
  | cons b t ih =>
    intro v k j hj
    rw [overwriteRegs, ih, Vector.getElem_setIfInBounds]
    simp only [List.length_cons]
    by_cases hk : k = j
    · subst hk
      simp
    · by_cases hr : k + 1 ≤ j ∧ j < k + 1 + t.length
      · have h2 : k ≤ j ∧ j < k + (t.length + 1) := by omega
        obtain ⟨d, rfl⟩ : ∃ d, j = k + 1 + d := ⟨j - (k + 1), by omega⟩
        have e1 : k + 1 + d - k = d + 1 := by omega
        have e2 : k + 1 + d - (k + 1) = d := by omega
        rw [if_pos hr, if_pos h2, e1, e2]; rfl
      · have h2 : ¬(k ≤ j ∧ j < k + (t.length + 1)) := by omega
        rw [if_neg hr, if_neg h2, if_neg hk]

/-- Reading a register after a run of writes from `V[0]` on. -/
theorem State.reg_setRegs (s : State) (bs : List Byte) (y : Nibble) :
    (s.setRegs bs).reg y = if y.toNat < bs.length then bs.getD y.toNat 0 else s.reg y := by
  have h := overwriteRegs_getElem bs s.v 0 y.toNat y.isLt
  simpa [State.reg, State.setRegs] using h

@[simp] theorem State.setMem_memByte (s : State) (m : Cells) (a : Nat) :
    memByte (s.setMem m) a = cellRead blankMem m a := rfl

@[simp] theorem State.setDisp_pixel (s : State) (d : Cells) (x y : Nat) :
    pixel (s.setDisp d) x y = cellRead blankDisp d (cellIndex x y) := rfl

end Sys2Proof.Machine
end

