-- ==== Sys2Proof/Laws/Ops.lean ====
section
/-! SUPPORT. What each shared operation does: the call stack, the outcome of an access, AddrFault entry, flags and lists of registers. -/

namespace Sys2Proof.Machine

/-! ### The call stack -/

theorem push_full {s : State} (a : Half) (h : s.sp = 16) : push s a = none := if_pos h

theorem push_room {s : State} (a : Half) (h : s.sp ≠ 16) :
    push s a = some { s with stack := s.stack.setIfInBounds s.sp.toNat a, sp := s.sp + 1 } := if_neg h

theorem pop_empty {s : State} (h : s.sp = 0) : pop s = none := if_pos h

theorem pop_item {s : State} (h : s.sp ≠ 0) :
    pop s = some (s.stack.toList.getD (s.sp.toNat - 1) 0, { s with sp := s.sp - 1 }) := if_neg h

theorem stackBroken_eq_false {s : State} : s.stackBroken = false ↔ s.sp.toNat ≤ 16 := by
  unfold State.stackBroken
  rw [decide_eq_false_iff_not]
  exact not_lt

theorem sp_add_one {n : BitVec 5} (h : n.toNat < 16) : (n + 1).toNat = n.toNat + 1 := by
  rw [BitVec.toNat_add]; simp; omega

theorem sp_sub_one {n : BitVec 5} (h : n ≠ 0) : (n - 1).toNat = n.toNat - 1 := by
  have h0 : n.toNat ≠ 0 := fun e => h (BitVec.eq_of_toNat_eq e)
  have := n.isLt
  rw [BitVec.toNat_sub]; simp; omega

/-! ### Accesses -/

@[simp] theorem withAccess_ok {α : Type} (a : α) (k : α → Host.Outcome State Fault Refusal) :
    withAccess (.ok a) k = k a := rfl

@[simp] theorem withAccess_error {α : Type} (f : Fault) (k : α → Host.Outcome State Fault Refusal) :
    withAccess (.error f) k = .fault f := rfl

/-! ### AddrFault entry -/

@[simp] theorem takeAddrFault_fault (a : Nat) (s : State) : (takeAddrFault a s).fault = true := rfl
@[simp] theorem takeAddrFault_out (a : Nat) (s : State) : (takeAddrFault a s).out = s.out ++ [.addrFault a] := rfl
@[simp] theorem takeAddrFault_par (a : Nat) (s : State) : (takeAddrFault a s).par = s.par := rfl


theorem takeAddrFault_mem (a : Nat) (s : State) : (takeAddrFault a s).mem =
    cellTabulate blankMem Config.memSize fun k => Config.freeByte s.draws (0x1000 + k) := by
  simp only [takeAddrFault]

theorem takeAddrFault_disp (a : Nat) (s : State) : (takeAddrFault a s).disp =
    cellTabulate blankDisp (Config.width * Config.height) fun k => Config.freeByte s.draws (0x2000 + k) := by
  simp only [takeAddrFault]

theorem takeAddrFault_mem_wf (a : Nat) (s : State) : Memory.wf (takeAddrFault a s).mem := by
  rw [takeAddrFault_mem]
  exact cellWf_cellTabulate blankMem Config.memSize _

theorem takeAddrFault_disp_wf (a : Nat) (s : State) : Display.wf (takeAddrFault a s).disp := by
  rw [takeAddrFault_disp]
  exact cellWf_cellTabulate blankDisp (Config.width * Config.height) _

/-! ### Flags and register lists -/

theorem flagByte_eq_one (c : Bool) : flagByte c = 1 ↔ c = true := by cases c <;> simp [flagByte]

theorem flagByte_cases (c : Bool) : flagByte c = 0 ∨ flagByte c = 1 := by cases c <;> simp [flagByte]

theorem regsUpTo_length (s : State) (x : Nibble) : (s.regsUpTo x).length = x.toNat + 1 := by
  have := x.isLt
  simp [State.regsUpTo]; omega

/-- The `k`-th byte of `V[0]`..`V[x]` is `V[k]`. -/
theorem regsUpTo_getD (s : State) (x k : Nibble) (h : k.toNat ≤ x.toNat) :
    (s.regsUpTo x).getD k.toNat 0 = s.reg k := by
  have hk := k.isLt
  have h2 : k.toNat < x.toNat + 1 := by omega
  have h3 : k.toNat < s.v.toList.length := by simpa using hk
  rw [State.regsUpTo, List.getD_eq_getElem?_getD, List.getElem?_take_of_lt h2, List.getElem?_eq_getElem h3]
  simp [State.reg]

/-- A key is released when it was held and is not held now. -/
theorem released_getLsbD (prev now : Half) {j : Nat} (h : j < 16) :
    (released prev now).getLsbD j = (prev.getLsbD j && !now.getLsbD j) := by
  simp [released, h]

/-- The lowest set bit is set, and no bit below it is. -/
theorem lowestBit_some {m : Half} {k : Nat} (h : lowestBit m = some k) :
    k < 16 ∧ m.getLsbD k = true ∧ ∀ j < k, m.getLsbD j = false := by
  have hk := List.find?_some h
  have hm := List.mem_range.1 (List.mem_of_find?_eq_some h)
  refine ⟨hm, by simpa using hk, fun j hj => ?_⟩
  obtain ⟨-, as, bs, e, hn⟩ := List.find?_eq_some_iff_append.1 h
  have : j ∈ as := by
    have hr : (List.range 16)[j]? = some j := by
      rw [List.getElem?_eq_getElem (by simpa using (by omega : j < 16))]; simp
    have hl : as.length = k := by
      have := congrArg (fun l => l[as.length]?) e
      simp only [List.getElem?_append_right (le_refl _), Nat.sub_self, List.getElem?_cons_zero] at this
      have h3 := List.getElem?_eq_some_iff.1 this
      obtain ⟨h4, h5⟩ := h3
      simpa using h5
    rw [e, List.getElem?_append_left (by omega)] at hr
    exact List.mem_of_getElem? hr
  simpa using hn j this

theorem lowestBit_none {m : Half} (h : lowestBit m = none) : m = 0 := by
  apply BitVec.eq_of_getLsbD_eq
  intro k hk
  simpa using List.find?_eq_none.1 h k (List.mem_range.2 hk)

end Sys2Proof.Machine
end

