-- ==== Sys2Proof/Laws/Display.lean ====
section
/-! SUPPORT. What a draw does to one cell, and when it faults (43_display.md R141). -/

namespace Sys2Proof.Machine

/-- A lit cell turns off, any other cell turns on. -/
def toggled (p : Config.Params) (c : Byte) : Byte := if c = onValue p then offValue p else onValue p

/-- The sprite of `rows` rows at `addr`, drawn at (x0, y0), has a set bit on the cell in column `cx` and row `cy`. -/
def spriteCovers (m : Cells) (addr x0 y0 rows cx cy : Nat) : Prop :=
  y0 ≤ cy ∧ cy < y0 + rows ∧ x0 ≤ cx ∧ cx < x0 + 8 ∧
    (cellRead blankMem m (addr + (cy - y0))).getLsbD (7 - (cx - x0)) = true

theorem cellIndex_inj {x y x' y' : Nat} (hx : x < 64) (hx' : x' < 64) :
    cellIndex x y = cellIndex x' y' ↔ x = x' ∧ y = y' := by
  simp only [cellIndex, Config.width]; omega

/-- One bit of a sprite row: the cell under it is toggled if the bit is set and in range; no other cell changes. -/
theorem drawBit_read (p : Config.Params) (b : Byte) (x0 y : Nat) (acc : Cells × Bool) (c : Nat)
    {cx cy : Nat} (hx : cx < 64) :
    cellRead blankDisp (drawBit p b x0 y acc c).1 (cellIndex cx cy) =
      if cx = x0 + c ∧ cy = y ∧ b.getLsbD (7 - c) = true then
        toggled p (cellRead blankDisp acc.1 (cellIndex cx cy))
      else cellRead blankDisp acc.1 (cellIndex cx cy) := by
  unfold drawBit
  by_cases h : x0 + c < Config.width ∧ b.getLsbD (7 - c) = true
  · have hw : x0 + c < 64 := h.1
    rw [if_pos h]
    by_cases hc : cx = x0 + c ∧ cy = y
    · obtain ⟨rfl, rfl⟩ := hc
      simp only [true_and, h.2, if_true, toggled]
      split <;> simp [cellRead_cellWrite]
    · have hi : cellIndex cx cy ≠ cellIndex (x0 + c) y := fun e => hc ((cellIndex_inj hx hw).1 e)
      have hn : ¬(cx = x0 + c ∧ cy = y ∧ b.getLsbD (7 - c) = true) := fun q => hc ⟨q.1, q.2.1⟩
      rw [if_neg hn]
      split <;> simp [cellRead_cellWrite, hi]
  · rw [if_neg h]
    have hn : ¬(cx = x0 + c ∧ cy = y ∧ b.getLsbD (7 - c) = true) := by
      rintro ⟨e, -, hb⟩
      exact h ⟨by simpa [Config.width, ← e] using hx, hb⟩
    rw [if_neg hn]

theorem drawBit_hit (p : Config.Params) (b : Byte) (x0 y : Nat) (acc : Cells × Bool) (c : Nat) :
    (drawBit p b x0 y acc c).2 = true ↔ acc.2 = true ∨
      (x0 + c < 64 ∧ b.getLsbD (7 - c) = true ∧
        cellRead blankDisp acc.1 (cellIndex (x0 + c) y) = onValue p) := by
  unfold drawBit
  by_cases h : x0 + c < Config.width ∧ b.getLsbD (7 - c) = true
  · have hw : x0 + c < 64 := h.1
    rw [if_pos h]
    by_cases ho : cellRead blankDisp acc.1 (cellIndex (x0 + c) y) = onValue p
    · rw [if_pos ho]
      exact ⟨fun _ => .inr ⟨hw, h.2, ho⟩, fun _ => rfl⟩
    · rw [if_neg ho]
      exact ⟨.inl, fun q => q.elim id fun q => absurd q.2.2 ho⟩
  · rw [if_neg h]
    refine ⟨.inl, fun q => q.elim id fun q => absurd ⟨?_, q.2.1⟩ h⟩
    simpa [Config.width] using q.1

/-- The first `n` columns of a sprite row. -/
theorem drawColumns_spec (p : Config.Params) (b : Byte) (x0 y : Nat) (acc : Cells × Bool) (n : Nat) :
    (∀ cx cy, cx < 64 → cellRead blankDisp ((List.range n).foldl (drawBit p b x0 y) acc).1 (cellIndex cx cy) =
      if cy = y ∧ x0 ≤ cx ∧ cx < x0 + n ∧ b.getLsbD (7 - (cx - x0)) = true then
        toggled p (cellRead blankDisp acc.1 (cellIndex cx cy))
      else cellRead blankDisp acc.1 (cellIndex cx cy)) ∧
    (((List.range n).foldl (drawBit p b x0 y) acc).2 = true ↔ acc.2 = true ∨
      ∃ cx, cx < 64 ∧ x0 ≤ cx ∧ cx < x0 + n ∧ b.getLsbD (7 - (cx - x0)) = true ∧
        cellRead blankDisp acc.1 (cellIndex cx y) = onValue p) := by
  induction n with
  | zero =>
    refine ⟨fun cx cy _ => ?_, ?_⟩
    · have : ¬(cy = y ∧ x0 ≤ cx ∧ cx < x0 + 0 ∧ b.getLsbD (7 - (cx - x0)) = true) := by omega
      rw [if_neg this]; rfl
    · refine ⟨.inl, fun q => q.elim id ?_⟩
      rintro ⟨cx, -, h1, h2, -⟩
      omega
  | succ n ih =>
    obtain ⟨ihr, ihh⟩ := ih
    rw [List.range_succ, List.foldl_append, List.foldl_cons, List.foldl_nil]
    refine ⟨fun cx cy hx => ?_, ?_⟩
    · rw [drawBit_read p b x0 y _ n hx, ihr cx cy hx]
      by_cases hc : cx = x0 + n
      · subst hc
        have h1 : ¬(cy = y ∧ x0 ≤ x0 + n ∧ x0 + n < x0 + n ∧ b.getLsbD (7 - (x0 + n - x0)) = true) := by omega
        have h2 : x0 + n - x0 = n := by omega
        rw [if_neg h1]
        by_cases hy : cy = y <;> by_cases hb : b.getLsbD (7 - n) = true <;> simp [h2, hy, hb]
      · have h1 : ¬(cx = x0 + n ∧ cy = y ∧ b.getLsbD (7 - n) = true) := fun q => hc q.1
        rw [if_neg h1]
        have h2 : (cx < x0 + n ↔ cx < x0 + (n + 1)) := by omega
        simp only [h2]
    · rw [drawBit_hit, ihh]
      constructor
      · rintro ((h | ⟨cx, h1, h2, h3, h4⟩) | ⟨h1, h2, h3⟩)
        · exact .inl h
        · exact .inr ⟨cx, h1, h2, by omega, h4⟩
        · refine .inr ⟨x0 + n, h1, by omega, by omega, ?_, ?_⟩
          · simpa using h2
          · have := ihr (x0 + n) y h1
            have hn : ¬(y = y ∧ x0 ≤ x0 + n ∧ x0 + n < x0 + n ∧ b.getLsbD (7 - (x0 + n - x0)) = true) := by omega
            rw [if_neg hn] at this
            rw [← this]; exact h3
      · rintro (h | ⟨cx, h1, h2, h3, h4, h5⟩)
        · exact .inl (.inl h)
        · by_cases hc : cx = x0 + n
          · subst hc
            refine .inr ⟨h1, by simpa using h4, ?_⟩
            have := ihr (x0 + n) y h1
            have hn : ¬(y = y ∧ x0 ≤ x0 + n ∧ x0 + n < x0 + n ∧ b.getLsbD (7 - (x0 + n - x0)) = true) := by omega
            rw [if_neg hn] at this
            rw [this]; exact h5
          · exact .inl (.inr ⟨cx, h1, h2, by omega, h4, h5⟩)

theorem drawRow_read (p : Config.Params) (b : Byte) (x0 y : Nat) (acc : Cells × Bool) {cx : Nat} (cy : Nat)
    (hx : cx < 64) :
    cellRead blankDisp (drawRow p b x0 y acc).1 (cellIndex cx cy) =
      if cy = y ∧ x0 ≤ cx ∧ cx < x0 + 8 ∧ b.getLsbD (7 - (cx - x0)) = true then
        toggled p (cellRead blankDisp acc.1 (cellIndex cx cy))
      else cellRead blankDisp acc.1 (cellIndex cx cy) :=
  (drawColumns_spec p b x0 y acc 8).1 cx cy hx

theorem drawRow_hit (p : Config.Params) (b : Byte) (x0 y : Nat) (acc : Cells × Bool) :
    (drawRow p b x0 y acc).2 = true ↔ acc.2 = true ∨
      ∃ cx, cx < 64 ∧ x0 ≤ cx ∧ cx < x0 + 8 ∧ b.getLsbD (7 - (cx - x0)) = true ∧
        cellRead blankDisp acc.1 (cellIndex cx y) = onValue p :=
  (drawColumns_spec p b x0 y acc 8).2

/-- The row loop when every byte it reads exists (with no row to draw it reads none): each covered cell is toggled once, no other cell changes, and a collision is a covered
cell that was lit. -/
theorem drawRows_ok (p : Config.Params) (m : Cells) (x0 : Nat) (n : Nat) :
    ∀ (addr y : Nat) (acc : Cells × Bool), n = 0 ∨ addr + n ≤ 0x1000 →
    ∃ r, drawRows p m x0 n addr y acc = .ok r ∧
      (∀ cx cy, cx < 64 → (spriteCovers m addr x0 y n cx cy →
          cellRead blankDisp r.1 (cellIndex cx cy) = toggled p (cellRead blankDisp acc.1 (cellIndex cx cy))) ∧
        (¬spriteCovers m addr x0 y n cx cy →
          cellRead blankDisp r.1 (cellIndex cx cy) = cellRead blankDisp acc.1 (cellIndex cx cy))) ∧
      (r.2 = true ↔ acc.2 = true ∨ ∃ cx cy, cx < 64 ∧ spriteCovers m addr x0 y n cx cy ∧
        cellRead blankDisp acc.1 (cellIndex cx cy) = onValue p) := by
  induction n with
  | zero =>
    intro addr y acc _
    refine ⟨acc, rfl, fun cx cy _ => ⟨fun h => ?_, fun _ => rfl⟩, .inl, fun q => q.elim id ?_⟩
    · obtain ⟨h1, h2, -⟩ := h; omega
    · rintro ⟨cx, cy, -, ⟨h1, h2, -⟩, -⟩; omega
  | succ n ih =>
    intro addr y acc h
    rw [drawRows, memRead_ok (by omega)]
    obtain ⟨r, e, hr, hh⟩ := ih (addr + 1) (y + 1) (drawRow p (cellRead blankMem m addr) x0 y acc) (.inr (by omega))
    refine ⟨r, e, fun cx cy hx => ?_, ?_⟩
    · obtain ⟨h1, h2⟩ := hr cx cy hx
      rw [drawRow_read p _ x0 y acc cy hx] at h1 h2
      by_cases hy : cy = y
      · subst hy
        have hn : ¬spriteCovers m (addr + 1) x0 (cy + 1) n cx cy := fun q => by have := q.1; omega
        have hc : spriteCovers m addr x0 cy (n + 1) cx cy ↔ x0 ≤ cx ∧ cx < x0 + 8 ∧
            (cellRead blankMem m addr).getLsbD (7 - (cx - x0)) = true := by
          simp [spriteCovers]
        rw [h2 hn, hc]
        refine ⟨fun q => if_pos ⟨rfl, q⟩, fun q => if_neg fun w => q w.2⟩
      · have hn : ¬(cy = y ∧ x0 ≤ cx ∧ cx < x0 + 8 ∧
            (cellRead blankMem m addr).getLsbD (7 - (cx - x0)) = true) := fun q => hy q.1
        rw [if_neg hn] at h1 h2
        have hc : spriteCovers m addr x0 y (n + 1) cx cy ↔ spriteCovers m (addr + 1) x0 (y + 1) n cx cy := by
          by_cases hl : y < cy
          · have ea : addr + (cy - y) = addr + 1 + (cy - (y + 1)) := by omega
            simp only [spriteCovers, ea]
            constructor <;> rintro ⟨a, b, c⟩ <;> exact ⟨by omega, by omega, c⟩
          · constructor <;> rintro ⟨a, b, -⟩ <;> omega
        rw [hc]; exact ⟨h1, h2⟩
    · rw [hh, drawRow_hit]
      have hs : ∀ cx, spriteCovers m addr x0 y (n + 1) cx y ↔ x0 ≤ cx ∧ cx < x0 + 8 ∧
          (cellRead blankMem m addr).getLsbD (7 - (cx - x0)) = true := fun cx => by simp [spriteCovers]
      have hc : ∀ cx cy, y < cy → (spriteCovers m addr x0 y (n + 1) cx cy ↔
          spriteCovers m (addr + 1) x0 (y + 1) n cx cy) := fun cx cy hl => by
        have ea : addr + (cy - y) = addr + 1 + (cy - (y + 1)) := by omega
        simp only [spriteCovers, ea]
        constructor <;> rintro ⟨a, b, c⟩ <;> exact ⟨by omega, by omega, c⟩
      constructor
      · rintro ((q | ⟨cx, h1, h2, h3, h4, h5⟩) | ⟨cx, cy, h1, h2, h3⟩)
        · exact .inl q
        · exact .inr ⟨cx, y, h1, (hs cx).2 ⟨h2, h3, h4⟩, h5⟩
        · have hl : y < cy := h2.1
          refine .inr ⟨cx, cy, h1, (hc cx cy hl).2 h2, ?_⟩
          rw [drawRow_read p _ x0 y acc cy h1, if_neg fun q => by omega] at h3
          exact h3
      · rintro (q | ⟨cx, cy, h1, h2, h3⟩)
        · exact .inl (.inl q)
        · by_cases hy : cy = y
          · subst hy
            obtain ⟨a, b, c⟩ := (hs cx).1 h2
            exact .inl (.inr ⟨cx, h1, a, b, c, h3⟩)
          · have hl : y < cy := by have := h2.1; omega
            refine .inr ⟨cx, cy, h1, (hc cx cy hl).1 h2, ?_⟩
            rw [drawRow_read p _ x0 y acc cy h1, if_neg fun q => hy q.1]
            exact h3

/-- The row loop reports the first address that is out of range. -/
theorem drawRows_fault (p : Config.Params) (m : Cells) (x0 : Nat) (n : Nat) :
    ∀ (addr y : Nat) (acc : Cells × Bool), 0x1000 < addr + n → 0 < n →
    drawRows p m x0 n addr y acc = .error (.addrFault (max addr 0x1000)) := by
  induction n with
  | zero => omega
  | succ n ih =>
    intro addr y acc h _
    by_cases ha : addr < 0x1000
    · have e : max (addr + 1) 0x1000 = max addr 0x1000 := by omega
      rw [drawRows, memRead_ok ha]
      simpa only [e] using ih (addr + 1) (y + 1) _ (by omega) (by omega)
    · have e : max addr 0x1000 = addr := by omega
      simp [drawRows, memRead_fault (m := m) (a := addr) (by omega), e]

theorem drawBit_wf (p : Config.Params) (b : Byte) (x0 : Nat) {y : Nat} (hy : y < 32) (acc : Cells × Bool) (c : Nat)
    (h : Display.wf acc.1) : Display.wf (drawBit p b x0 y acc c).1 := by
  unfold drawBit
  split
  · rename_i hc
    have hi : cellIndex (x0 + c) y < Config.width * Config.height := by
      have := hc.1
      simp only [cellIndex, Config.width, Config.height] at this ⊢; omega
    split <;> exact cellWf_cellWrite _ h hi
  · exact h

theorem drawRow_wf (p : Config.Params) (b : Byte) (x0 : Nat) {y : Nat} (hy : y < 32) (acc : Cells × Bool)
    (h : Display.wf acc.1) : Display.wf (drawRow p b x0 y acc).1 := by
  unfold drawRow
  induction List.range 8 generalizing acc with
  | nil => exact h
  | cons c t ih => exact ih _ (drawBit_wf p b x0 hy acc c h)

/-- Drawing rows of the display keeps its canonical form. -/
theorem drawRows_wf (p : Config.Params) (m : Cells) (x0 : Nat) (n : Nat) :
    ∀ (addr y : Nat) (acc r : Cells × Bool), y + n ≤ 32 → drawRows p m x0 n addr y acc = .ok r →
    Display.wf acc.1 → Display.wf r.1 := by
  induction n with
  | zero => intro addr y acc r _ e h; simp only [drawRows, Except.ok.injEq] at e; exact e ▸ h
  | succ n ih =>
    intro addr y acc r hy e h
    by_cases ha : addr < 0x1000
    · rw [drawRows, memRead_ok ha] at e
      exact ih (addr + 1) (y + 1) _ r (by omega) e (drawRow_wf p _ x0 (by omega) acc h)
    · rw [drawRows, memRead_fault (by omega)] at e
      simp at e

end Sys2Proof.Machine
end

