-- ==== Sys2Proof/Laws/Exec.lean ====
section
/-! SUPPORT. What the meanings that branch can have done: the accesses that may fault, the call stack, and the parts the meanings are made of. -/

namespace Sys2Proof.Machine

/-! ### Accesses that may fault -/

theorem withAccess_next {α : Type} {r : Except Fault α} {k : α → Host.Outcome State Fault Refusal} {t : State}
    (h : withAccess r k = .next t) : ∃ a, r = .ok a ∧ k a = .next t := by
  cases r with
  | ok a => exact ⟨a, rfl, h⟩
  | error f => simp at h

theorem withAccess_fault {α : Type} {r : Except Fault α} {k : α → State} {f : Fault}
    (h : (withAccess r fun a => .next (k a)) = .fault f) : r = .error f := by
  cases r with
  | ok a => simp at h
  | error g => simpa using h

theorem withAccess_refused {α : Type} {r : Except Fault α} {k : α → State} {q : Refusal} :
    (withAccess r fun a => .next (k a)) ≠ .refused q := by
  cases r <;> simp

theorem memRead_error {m : Cells} {a : Nat} {f : Fault} (h : memRead m a = .error f) :
    f = .addrFault a ∧ 0xFFF < a := by
  by_cases ha : a < 0x1000
  · rw [memRead_ok ha] at h; cases h
  · rw [memRead_fault (by omega)] at h
    exact ⟨(Except.error.inj h).symm, by omega⟩

theorem storeBytes_error (bs : List Byte) : ∀ {m : Cells} {a : Nat} {f : Fault}, storeBytes m a bs = .error f →
    ∃ k, f = .addrFault k ∧ 0xFFF < k := by
  induction bs with
  | nil => intro m a f h; simp [storeBytes] at h
  | cons b t ih =>
    intro m a f h
    by_cases ha : a < 0x1000
    · rw [storeBytes, memWrite_ok b ha] at h
      exact ih h
    · rw [storeBytes, memWrite_fault b (by omega)] at h
      exact ⟨a, (Except.error.inj h).symm, by omega⟩

theorem loadBytes_error (m : Cells) (n : Nat) : ∀ {a : Nat} {f : Fault}, loadBytes m a n = .error f →
    ∃ k, f = .addrFault k ∧ 0xFFF < k := by
  intro a f h
  by_cases hn : n = 0
  · subst hn; cases h
  · by_cases ha : a + n ≤ 0x1000
    · rw [loadBytes_ok m n a ha] at h; cases h
    · rw [loadBytes_fault m n a (by omega) (by omega)] at h
      exact ⟨max a 0x1000, (Except.error.inj h).symm, by omega⟩

theorem drawRows_error (p : Config.Params) (m : Cells) (x0 n : Nat) {addr y : Nat} {acc : Cells × Bool} {f : Fault}
    (h : drawRows p m x0 n addr y acc = .error f) : ∃ k, f = .addrFault k ∧ 0xFFF < k := by
  by_cases hn : n = 0
  · subst hn; cases h
  · by_cases ha : addr + n ≤ 0x1000
    · obtain ⟨r, e, -⟩ := drawRows_ok p m x0 n addr y acc (.inr ha)
      rw [e] at h; cases h
    · rw [drawRows_fault p m x0 n addr y acc (by omega) (by omega)] at h
      exact ⟨max addr 0x1000, (Except.error.inj h).symm, by omega⟩

/-! ### The meanings that store, load or draw -/

theorem execLdB_next {x : Nibble} {s t : State} (h : execLdB x s = .next t) :
    ∃ m, storeBytes s.mem s.i.toNat (decimalDigits (s.reg x)) = .ok m ∧ t = s.setMem m := by
  obtain ⟨m, e, h⟩ := withAccess_next h
  exact ⟨m, e, (Host.Outcome.next.inj h).symm⟩

theorem execStRegs_next {x : Nibble} {s t : State} (h : execStRegs x s = .next t) :
    ∃ m, storeBytes s.mem s.i.toNat (s.regsUpTo x) = .ok m ∧ t = advanceIndex x (s.setMem m) := by
  obtain ⟨m, e, h⟩ := withAccess_next h
  exact ⟨m, e, (Host.Outcome.next.inj h).symm⟩

theorem execLdRegs_next {x : Nibble} {s t : State} (h : execLdRegs x s = .next t) :
    ∃ bs, loadBytes s.mem s.i.toNat (x.toNat + 1) = .ok bs ∧ t = advanceIndex x (s.setRegs bs) := by
  obtain ⟨m, e, h⟩ := withAccess_next h
  exact ⟨m, e, (Host.Outcome.next.inj h).symm⟩

/-- A draw that completes has drawn at most down to the bottom edge. -/
theorem execDrw_next {x y n : Nibble} {s t : State} (h : execDrw x y n s = .next t) :
    ∃ x0 y0 r, y0 + rowsDrawn n y0 ≤ 32 ∧
      drawRows s.par s.mem x0 (rowsDrawn n y0) s.i.toNat y0 (s.disp, false) = .ok r ∧
      t = ((s.setReg vf 0).setDisp r.1).setReg vf (flagByte r.2) := by
  obtain ⟨r, e, h⟩ := withAccess_next h
  refine ⟨_, _, r, ?_, e, (Host.Outcome.next.inj h).symm⟩
  have : ((s.setVf 0).reg y).toNat % Config.height < 32 := Nat.mod_lt _ (by decide)
  simp only [rowsDrawn, Config.height] at *
  omega

/-- `I` is the one thing the bulk transfers' side effect changes. -/
theorem advanceIndex_cases (x : Nibble) (s : State) : ∃ a, advanceIndex x s = s.setI a := by
  unfold advanceIndex
  split
  · exact ⟨_, rfl⟩
  · exact ⟨s.i, rfl⟩

/-! ### The call stack -/

/-- A call that completes: the pushed state or the diagnostic event, and the jump. -/
theorem execCall_next {nnn : Addr} {s t : State} (h : execCall nnn s = .next t) : s.sp.toNat ≤ 16 ∧
    ((s.sp = 16 ∧ t = (s.emit .stackOverflow).setPc (addr16 nnn)) ∨
      (s.sp.toNat < 16 ∧ t = { s with stack := s.stack.setIfInBounds s.sp.toNat s.pc, sp := s.sp + 1, pc := addr16 nnn })) := by
  cases hb : s.stackBroken with
  | true => simp [execCall, hb] at h
  | false =>
    have hs := stackBroken_eq_false.1 hb
    simp only [execCall, hb, Bool.false_eq_true, if_false, Host.Outcome.next.injEq] at h
    refine ⟨hs, ?_⟩
    by_cases h16 : s.sp = 16
    · rw [push_full _ h16] at h; exact .inl ⟨h16, h.symm⟩
    · rw [push_room _ h16] at h
      have : s.sp.toNat ≠ 16 := fun e => h16 (BitVec.eq_of_toNat_eq e)
      exact .inr ⟨by omega, h.symm⟩

/-- A return that completes: the popped address, or the diagnostic event. -/
theorem execRet_next {s t : State} (h : execRet s = .next t) : s.sp.toNat ≤ 16 ∧
    ((s.sp = 0 ∧ t = s.emit .stackUnderflow) ∨
      (s.sp ≠ 0 ∧ t = { s with sp := s.sp - 1, pc := s.stack.toList.getD (s.sp.toNat - 1) 0 })) := by
  cases hb : s.stackBroken with
  | true => simp [execRet, hb] at h
  | false =>
    have hs := stackBroken_eq_false.1 hb
    simp only [execRet, hb, Bool.false_eq_true, if_false, Host.Outcome.next.injEq] at h
    refine ⟨hs, ?_⟩
    by_cases h0 : s.sp = 0
    · rw [pop_empty h0] at h; exact .inl ⟨h0, h.symm⟩
    · rw [pop_item h0] at h; exact .inr ⟨h0, h.symm⟩

/-! ### Shifts and the key wait -/

/-- Step 1 of a shift writes the target register or nothing. -/
theorem shiftCopy_cases (x y : Nibble) (s : State) : ∃ b, shiftCopy x y s = s.setReg x b := by
  unfold shiftCopy
  split
  · exact ⟨_, rfl⟩
  · refine ⟨s.reg x, ?_⟩
    have : s.v.set x.toNat (s.reg x) x.isLt = s.v := by
      apply Vector.ext
      intro j hj
      rw [Vector.getElem_set]
      split
      · subst_vars; rfl
      · rfl
    rw [State.setReg, this]

/-- The end of the key wait writes one register or nothing. -/
theorem takeRelease_cases (x : Nibble) (rel : Half) (s : State) :
    takeRelease x rel s = s ∨ ∃ b, takeRelease x rel s = s.setReg x b := by
  unfold takeRelease
  split
  · exact .inr ⟨_, rfl⟩
  · exact .inl rfl

/-- An instruction that completes adds at most one event (46_cycle_driver.md R178). -/
theorem exec_out {i : Instr} {s t : State} (h : exec i s = .next t) :
    ∃ d, d ∈ [[], [Event.poll], [.rand], [.stackOverflow], [.stackUnderflow]] ∧ t.out = s.out ++ d := by
  cases i with
  | ret =>
    obtain ⟨-, ⟨-, rfl⟩ | ⟨-, rfl⟩⟩ := execRet_next h
    · exact ⟨[.stackUnderflow], by simp, rfl⟩
    · exact ⟨[], by simp, by simp⟩
  | call =>
    obtain ⟨-, ⟨-, rfl⟩ | ⟨-, rfl⟩⟩ := execCall_next h
    · exact ⟨[.stackOverflow], by simp, rfl⟩
    · exact ⟨[], by simp, by simp⟩
  | drw => obtain ⟨_, _, r, -, -, rfl⟩ := execDrw_next h; exact ⟨[], by simp, by simp⟩
  | ldB => obtain ⟨r, -, rfl⟩ := execLdB_next h; exact ⟨[], by simp, by simp⟩
  | stRegs x =>
    obtain ⟨m, -, rfl⟩ := execStRegs_next h
    obtain ⟨a, e⟩ := advanceIndex_cases x (s.setMem m)
    exact ⟨[], by simp, by rw [e]; simp⟩
  | ldRegs x =>
    obtain ⟨bs, -, rfl⟩ := execLdRegs_next h
    obtain ⟨a, e⟩ := advanceIndex_cases x (s.setRegs bs)
    exact ⟨[], by simp, by rw [e]; simp⟩
  | shr x y =>
    cases h
    obtain ⟨b, e⟩ := shiftCopy_cases x y s
    exact ⟨[], by simp, by rw [e]; simp [shiftInPlace]⟩
  | shl x y =>
    cases h
    obtain ⟨b, e⟩ := shiftCopy_cases x y s
    exact ⟨[], by simp, by rw [e]; simp [shiftInPlace]⟩
  | ldVxK x =>
    refine ⟨[.poll], by simp, ?_⟩
    cases h
    split
    · simp
    · obtain e | ⟨b, e⟩ := takeRelease_cases x (released s.lastKeyState s.nextKeys) s.polled <;> rw [e] <;> simp
  | addI x => refine ⟨[], by simp, ?_⟩; cases h; split <;> simp
  | rnd => cases h; exact ⟨[.rand], by simp, by simp⟩
  | skp => cases h; exact ⟨[.poll], by simp, by simp⟩
  | sknp => cases h; exact ⟨[.poll], by simp, by simp⟩
  | _ => cases h; exact ⟨[], by simp, by simp⟩

/-- The only fault an instruction raises is AddrFault, at an address that does not exist. -/
theorem exec_fault {i : Instr} {s : State} {f : Fault} (h : exec i s = .fault f) :
    ∃ k, f = .addrFault k ∧ 0xFFF < k := by
  cases i with
  | ret => simp only [exec, execRet] at h; split at h <;> cases h
  | call => simp only [exec, execCall] at h; split at h <;> cases h
  | drw => exact drawRows_error _ _ _ _ (withAccess_fault h)
  | ldB => exact storeBytes_error _ (withAccess_fault h)
  | stRegs => exact storeBytes_error _ (withAccess_fault h)
  | ldRegs => exact loadBytes_error _ _ (withAccess_fault h)
  | _ => cases h

/-- The only refusal of an instruction is that of a broken stack. -/
theorem exec_refused {i : Instr} {s : State} {q : Refusal} (h : exec i s = .refused q) :
    q = .stackCursorOutOfRange ∧ 16 < s.sp.toNat := by
  cases i with
  | ret =>
    simp only [exec, execRet] at h
    split at h
    · exact ⟨(Host.Outcome.refused.inj h).symm, of_decide_eq_true ‹_›⟩
    · cases h
  | call =>
    simp only [exec, execCall] at h
    split at h
    · exact ⟨(Host.Outcome.refused.inj h).symm, of_decide_eq_true ‹_›⟩
    · cases h
  | drw => exact absurd h withAccess_refused
  | ldB => exact absurd h withAccess_refused
  | stRegs => exact absurd h withAccess_refused
  | ldRegs => exact absurd h withAccess_refused
  | _ => cases h

end Sys2Proof.Machine
end

