-- ==== Sys2Proof/Laws/PerInstr.lean ====
section
/-! SUPPORT. The family of statements made per instruction, `EncodedFamily`: the leading nibble of an instruction's encoding is the one its row of the opcode map has (30_encoding.md R64, R65). -/

namespace Sys2Proof.Laws.EncodedFamily

/-- The leading nibbles a row of the opcode map can have; the no-op stands in the four families that sub-dispatch (30_encoding.md R67). -/
def families : Instr → List Nat
  | .cls _ | .ret _ => [0x0]
  | .jp _ => [0x1]
  | .call _ => [0x2]
  | .seImm _ _ => [0x3]
  | .sneImm _ _ => [0x4]
  | .seReg _ _ _ => [0x5]
  | .ldImm _ _ => [0x6]
  | .addImm _ _ => [0x7]
  | .ldReg _ _ | .orReg _ _ | .andReg _ _ | .xorReg _ _ | .addReg _ _ | .subReg _ _ | .shr _ _ | .subnReg _ _ | .shl _ _ => [0x8]
  | .sneReg _ _ _ => [0x9]
  | .ldI _ => [0xA]
  | .jpOff _ => [0xB]
  | .rnd _ _ => [0xC]
  | .drw _ _ _ => [0xD]
  | .skp _ | .sknp _ => [0xE]
  | .ldVxDt _ | .ldVxK _ | .ldDtVx _ | .ldStVx _ | .addI _ | .ldF _ | .ldB _ | .stRegs _ | .ldRegs _ => [0xF]
  | .nop _ => [0x0, 0x8, 0xE, 0xF]

/-- The encoding of a well-formed instruction begins with a leading nibble of its row. -/
def Statement (i : Instr) : Prop := i.wellFormed = true → (opOf (encode i)).toNat ∈ families i

theorem cls (ign : Nibble) : Statement (.cls ign) := fun _ => by simp [encode, opOf_wordXNN, families]
theorem ret (ign : Nibble) : Statement (.ret ign) := fun _ => by simp [encode, opOf_wordXNN, families]
theorem jp (nnn : Addr) : Statement (.jp nnn) := fun _ => by simp [encode, opOf_wordNNN, families]
theorem call (nnn : Addr) : Statement (.call nnn) := fun _ => by simp [encode, opOf_wordNNN, families]
theorem seImm (x : Nibble) (nn : Byte) : Statement (.seImm x nn) := fun _ => by simp [encode, opOf_wordXNN, families]
theorem sneImm (x : Nibble) (nn : Byte) : Statement (.sneImm x nn) := fun _ => by simp [encode, opOf_wordXNN, families]
theorem seReg (x : Nibble) (y : Nibble) (n : Nibble) : Statement (.seReg x y n) := fun _ => by simp [encode, opOf_wordXYN, families]
theorem ldImm (x : Nibble) (nn : Byte) : Statement (.ldImm x nn) := fun _ => by simp [encode, opOf_wordXNN, families]
theorem addImm (x : Nibble) (nn : Byte) : Statement (.addImm x nn) := fun _ => by simp [encode, opOf_wordXNN, families]
theorem ldReg (x : Nibble) (y : Nibble) : Statement (.ldReg x y) := fun _ => by simp [encode, opOf_wordXYN, families]
theorem orReg (x : Nibble) (y : Nibble) : Statement (.orReg x y) := fun _ => by simp [encode, opOf_wordXYN, families]
theorem andReg (x : Nibble) (y : Nibble) : Statement (.andReg x y) := fun _ => by simp [encode, opOf_wordXYN, families]
theorem xorReg (x : Nibble) (y : Nibble) : Statement (.xorReg x y) := fun _ => by simp [encode, opOf_wordXYN, families]
theorem addReg (x : Nibble) (y : Nibble) : Statement (.addReg x y) := fun _ => by simp [encode, opOf_wordXYN, families]
theorem subReg (x : Nibble) (y : Nibble) : Statement (.subReg x y) := fun _ => by simp [encode, opOf_wordXYN, families]
theorem shr (x : Nibble) (y : Nibble) : Statement (.shr x y) := fun _ => by simp [encode, opOf_wordXYN, families]
theorem subnReg (x : Nibble) (y : Nibble) : Statement (.subnReg x y) := fun _ => by simp [encode, opOf_wordXYN, families]
theorem shl (x : Nibble) (y : Nibble) : Statement (.shl x y) := fun _ => by simp [encode, opOf_wordXYN, families]
theorem sneReg (x : Nibble) (y : Nibble) (n : Nibble) : Statement (.sneReg x y n) := fun _ => by simp [encode, opOf_wordXYN, families]
theorem ldI (nnn : Addr) : Statement (.ldI nnn) := fun _ => by simp [encode, opOf_wordNNN, families]
theorem jpOff (nnn : Addr) : Statement (.jpOff nnn) := fun _ => by simp [encode, opOf_wordNNN, families]
theorem rnd (x : Nibble) (nn : Byte) : Statement (.rnd x nn) := fun _ => by simp [encode, opOf_wordXNN, families]
theorem drw (x : Nibble) (y : Nibble) (n : Nibble) : Statement (.drw x y n) := fun _ => by simp [encode, opOf_wordXYN, families]
theorem skp (x : Nibble) : Statement (.skp x) := fun _ => by simp [encode, opOf_wordXNN, families]
theorem sknp (x : Nibble) : Statement (.sknp x) := fun _ => by simp [encode, opOf_wordXNN, families]
theorem ldVxDt (x : Nibble) : Statement (.ldVxDt x) := fun _ => by simp [encode, opOf_wordXNN, families]
theorem ldVxK (x : Nibble) : Statement (.ldVxK x) := fun _ => by simp [encode, opOf_wordXNN, families]
theorem ldDtVx (x : Nibble) : Statement (.ldDtVx x) := fun _ => by simp [encode, opOf_wordXNN, families]
theorem ldStVx (x : Nibble) : Statement (.ldStVx x) := fun _ => by simp [encode, opOf_wordXNN, families]
theorem addI (x : Nibble) : Statement (.addI x) := fun _ => by simp [encode, opOf_wordXNN, families]
theorem ldF (x : Nibble) : Statement (.ldF x) := fun _ => by simp [encode, opOf_wordXNN, families]
theorem ldB (x : Nibble) : Statement (.ldB x) := fun _ => by simp [encode, opOf_wordXNN, families]
theorem stRegs (x : Nibble) : Statement (.stRegs x) := fun _ => by simp [encode, opOf_wordXNN, families]
theorem ldRegs (x : Nibble) : Statement (.ldRegs x) := fun _ => by simp [encode, opOf_wordXNN, families]
theorem nop (w : Half) : Statement (.nop w) := fun h => by
  have hw := w.isLt
  simp only [Instr.wellFormed, unassigned] at h
  simp only [encode, opOf_toNat, families]
  split at h <;> simp_all

end Sys2Proof.Laws.EncodedFamily
end

