-- ==== Sys2Proof/Laws/Ports.lean ====
section
/-! SUPPORT. What the host's byte writes do to memory (70_reset_and_hazards.md R220, R225). -/

namespace Sys2Proof.Machine

/-- A run of byte writes: the written addresses hold the bytes, every other address is as before. -/
theorem cellRead_fillBytes (bs : List Byte) : ∀ (m : Cells) (a k : Nat),
    cellRead blankMem (fillBytes m a bs) k =
      if a ≤ k ∧ k < a + bs.length then bs.getD (k - a) 0 else cellRead blankMem m k := by
  induction bs with
  | nil =>
    intro m a k
    have : ¬(a ≤ k ∧ k < a + ([] : List Byte).length) := by simp
    rw [if_neg this]; rfl
  | cons b t ih =>
    intro m a k
    rw [fillBytes, ih, cellRead_cellWrite]
    simp only [List.length_cons]
    by_cases hk : k = a
    · subst hk
      simp
    · by_cases hr : a + 1 ≤ k ∧ k < a + 1 + t.length
      · have h2 : a ≤ k ∧ k < a + (t.length + 1) := by omega
        obtain ⟨d, rfl⟩ : ∃ d, k = a + 1 + d := ⟨k - (a + 1), by omega⟩
        have e1 : a + 1 + d - a = d + 1 := by omega
        have e2 : a + 1 + d - (a + 1) = d := by omega
        rw [if_pos hr, if_pos h2, e1, e2]; rfl
      · have h2 : ¬(a ≤ k ∧ k < a + (t.length + 1)) := by omega
        rw [if_neg hr, if_neg hk, if_neg h2]

theorem fillBytes_wf (bs : List Byte) : ∀ {m : Cells} {a : Nat}, a + bs.length ≤ 0x1000 →
    Memory.wf m → Memory.wf (fillBytes m a bs) := by
  induction bs with
  | nil => intro m a _ h; exact h
  | cons b t ih =>
    intro m a hl h
    simp only [List.length_cons] at hl
    exact ih (by omega) (cellWf_cellWrite b h (show a < Config.memSize by simp [Config.memSize]; omega))

end Sys2Proof.Machine
end

