-- ==== Sys2Proof/Laws/Step.lean ====
section
/-! SUPPORT. What the parts of a cycle around the instruction do, and everything one step can do (46_cycle_driver.md R170). -/

namespace Sys2Proof.Machine

/-! ### Timer decay (60_exceptions.md R201) -/

theorem ticksPerCycle_nonneg (fr : Half) : 0 ≤ ticksPerCycle fr := by
  rw [ticksPerCycle, Rat.mkRat_eq_div]
  exact div_nonneg (by norm_num [Config.timerHz]) (by exact_mod_cast Nat.zero_le _)

theorem decay_stopped (fr : Half) (r : Rat) : decay fr 0 r = (0, r) := if_pos rfl

theorem decay_waits {fr : Half} {t : Byte} {r : Rat} (ht : t ≠ 0) (h : r + ticksPerCycle fr ≤ 1) :
    decay fr t r = (t, r + ticksPerCycle fr) := by
  rw [decay, if_neg ht, if_neg (not_lt.2 h)]

theorem decay_ticks {fr : Half} {t : Byte} {r : Rat} (ht : t ≠ 0) (h : 1 < r + ticksPerCycle fr) :
    decay fr t r = (BitVec.ofNat 8 (t.toNat - (r + ticksPerCycle fr).floor.toNat),
      r + ticksPerCycle fr - ((r + ticksPerCycle fr).floor : Rat)) := by
  rw [decay, if_neg ht, if_pos h]

/-- The remainder stays in the closed interval 0 to 1 (10_state.md R31). -/
theorem decay_remainder {fr : Half} {t : Byte} {r : Rat} (h0 : 0 ≤ r) (h1 : r ≤ 1) :
    0 ≤ (decay fr t r).2 ∧ (decay fr t r).2 ≤ 1 := by
  by_cases ht : t = 0
  · subst ht; rw [decay_stopped]; exact ⟨h0, h1⟩
  · by_cases h : 1 < r + ticksPerCycle fr
    · rw [decay_ticks ht h]
      have l := Rat.floor_le (r + ticksPerCycle fr)
      have u := Rat.lt_floor (x := r + ticksPerCycle fr)
      exact ⟨by linarith, by linarith⟩
    · rw [decay_waits ht (not_lt.1 h)]
      exact ⟨add_nonneg h0 (ticksPerCycle_nonneg fr), not_lt.1 h⟩

/-! ### Steps 1 to 4 -/

@[simp] theorem beforeFetch_v (s : State) : (beforeFetch s).v = s.v := by
  unfold beforeFetch alphaDecay; split <;> rfl
@[simp] theorem beforeFetch_pc (s : State) : (beforeFetch s).pc = s.pc := by
  unfold beforeFetch alphaDecay; split <;> rfl
@[simp] theorem beforeFetch_i (s : State) : (beforeFetch s).i = s.i := by
  unfold beforeFetch alphaDecay; split <;> rfl
@[simp] theorem beforeFetch_mem (s : State) : (beforeFetch s).mem = s.mem := by
  unfold beforeFetch alphaDecay; split <;> rfl
@[simp] theorem beforeFetch_stack (s : State) : (beforeFetch s).stack = s.stack := by
  unfold beforeFetch alphaDecay; split <;> rfl
@[simp] theorem beforeFetch_sp (s : State) : (beforeFetch s).sp = s.sp := by
  unfold beforeFetch alphaDecay; split <;> rfl
@[simp] theorem beforeFetch_lastKeyState (s : State) : (beforeFetch s).lastKeyState = s.lastKeyState := by
  unfold beforeFetch alphaDecay; split <;> rfl
@[simp] theorem beforeFetch_fault (s : State) : (beforeFetch s).fault = s.fault := by
  unfold beforeFetch alphaDecay; split <;> rfl
@[simp] theorem beforeFetch_cfgShift (s : State) : (beforeFetch s).cfgShift = s.cfgShift := by
  unfold beforeFetch alphaDecay; split <;> rfl
@[simp] theorem beforeFetch_cfgJump (s : State) : (beforeFetch s).cfgJump = s.cfgJump := by
  unfold beforeFetch alphaDecay; split <;> rfl
@[simp] theorem beforeFetch_cfgLdst (s : State) : (beforeFetch s).cfgLdst = s.cfgLdst := by
  unfold beforeFetch alphaDecay; split <;> rfl
@[simp] theorem beforeFetch_fr (s : State) : (beforeFetch s).fr = s.fr := by
  unfold beforeFetch alphaDecay; split <;> rfl
@[simp] theorem beforeFetch_par (s : State) : (beforeFetch s).par = s.par := by
  unfold beforeFetch alphaDecay; split <;> rfl
@[simp] theorem beforeFetch_keyTape (s : State) : (beforeFetch s).keyTape = s.keyTape := by
  unfold beforeFetch alphaDecay; split <;> rfl
@[simp] theorem beforeFetch_randTape (s : State) : (beforeFetch s).randTape = s.randTape := by
  unfold beforeFetch alphaDecay; split <;> rfl
@[simp] theorem beforeFetch_draws (s : State) : (beforeFetch s).draws = s.draws := by
  unfold beforeFetch alphaDecay; split <;> rfl
@[simp] theorem beforeFetch_reg (s : State) (x : Nibble) : (beforeFetch s).reg x = s.reg x := by
  simp only [State.reg, beforeFetch_v]
@[simp] theorem beforeFetch_memByte (s : State) (a : Nat) : memByte (beforeFetch s) a = memByte s a := by
  simp only [memByte, beforeFetch_mem]
@[simp] theorem beforeFetch_dt (s : State) : (beforeFetch s).dt =
    (decay s.fr s.dt s.drem).1 := by
  unfold beforeFetch alphaDecay; split <;> rfl
@[simp] theorem beforeFetch_drem (s : State) : (beforeFetch s).drem =
    (decay s.fr s.dt s.drem).2 := by
  unfold beforeFetch alphaDecay; split <;> rfl
@[simp] theorem beforeFetch_st (s : State) : (beforeFetch s).st =
    (decay s.fr s.st s.srem).1 := by
  unfold beforeFetch alphaDecay; split <;> rfl
@[simp] theorem beforeFetch_srem (s : State) : (beforeFetch s).srem =
    (decay s.fr s.st s.srem).2 := by
  unfold beforeFetch alphaDecay; split <;> rfl
@[simp] theorem beforeFetch_sndOn (s : State) : (beforeFetch s).sndOn =
    decide (0 < (decay s.fr s.st s.srem).1.toNat) := by
  unfold beforeFetch alphaDecay; split <;> rfl
@[simp] theorem beforeFetch_out (s : State) : (beforeFetch s).out =
    if decide (0 < (decay s.fr s.st s.srem).1.toNat) = s.sndOn then [] else [.audioToggle] := by
  unfold beforeFetch alphaDecay; split <;> rfl

/-- There is no decay step in the binary regime (43_display.md R143). -/
theorem beforeFetch_disp_binary {s : State} (h : s.par.pixelMode = .binary) : (beforeFetch s).disp = s.disp := by
  have e : (audioEdge (decayTimers (clearOut s))).par.pixelMode = .binary := h
  simp only [beforeFetch, alphaDecay, e]; rfl

theorem beforeFetch_disp_alpha {s : State} (h : s.par.pixelMode = .alpha) :
    (beforeFetch s).disp = cellMap (fadeCell s.par.fadeStep.val) s.disp := by
  have e : (audioEdge (decayTimers (clearOut s))).par.pixelMode = .alpha := h
  simp only [beforeFetch, alphaDecay, e]; rfl

theorem fadeCell_zero (f : Byte) : fadeCell f 0 = 0 := by simp [fadeCell]

/-- One cell of the alpha decay as a number (43_display.md R143); the truncated difference is the floor at 0. -/
theorem fadeCell_toNat (f c : Byte) :
    (fadeCell f c).toNat = if 0 < c.toNat ∧ c.toNat < 255 then c.toNat - f.toNat else c.toNat := by
  unfold fadeCell
  split
  · rw [BitVec.toNat_ofNat, Nat.mod_eq_of_lt (by omega)]
  · rfl

/-- Steps 1 to 4 keep the display's canonical form. -/
theorem beforeFetch_disp_wf {s : State} (h : Display.wf s.disp) : Display.wf (beforeFetch s).disp := by
  rcases hm : s.par.pixelMode with _ | _
  · rw [beforeFetch_disp_binary hm]; exact h
  · rw [beforeFetch_disp_alpha hm]; exact cellWf_cellMap _ h

/-! ### Fetch (20_memory.md R44) -/

theorem fetch_ok {s : State} (h : s.pc.toNat ≤ 0xFFE) :
    fetch s = .ok (memByte s s.pc.toNat ++ memByte s (s.pc.toNat + 1), s.setPc (s.pc + 2)) := by
  rw [fetch, memRead2_ok h]; rfl

theorem fetch_fault {s : State} (h : 0xFFE < s.pc.toNat) :
    fetch s = .error (.addrFault (max s.pc.toNat 0x1000)) := by
  rw [fetch, memRead2_fault h]

/-! ### The end of a cycle -/

@[simp] theorem endCycle_next (s t : State) : endCycle s (.next t) = .next (refreshKeys t) := rfl
@[simp] theorem endCycle_fault (s : State) (f : Fault) : endCycle s (.fault f) = .next (takeFault f s) := rfl
@[simp] theorem endCycle_refused (s : State) (r : Refusal) : endCycle s (.refused r) = .refused r := rfl

@[simp] theorem refreshKeys_v (s : State) : (refreshKeys s).v = s.v := rfl
@[simp] theorem refreshKeys_pc (s : State) : (refreshKeys s).pc = s.pc := rfl
@[simp] theorem refreshKeys_i (s : State) : (refreshKeys s).i = s.i := rfl
@[simp] theorem refreshKeys_mem (s : State) : (refreshKeys s).mem = s.mem := rfl
@[simp] theorem refreshKeys_disp (s : State) : (refreshKeys s).disp = s.disp := rfl
@[simp] theorem refreshKeys_stack (s : State) : (refreshKeys s).stack = s.stack := rfl
@[simp] theorem refreshKeys_sp (s : State) : (refreshKeys s).sp = s.sp := rfl
@[simp] theorem refreshKeys_dt (s : State) : (refreshKeys s).dt = s.dt := rfl
@[simp] theorem refreshKeys_st (s : State) : (refreshKeys s).st = s.st := rfl
@[simp] theorem refreshKeys_drem (s : State) : (refreshKeys s).drem = s.drem := rfl
@[simp] theorem refreshKeys_srem (s : State) : (refreshKeys s).srem = s.srem := rfl
@[simp] theorem refreshKeys_sndOn (s : State) : (refreshKeys s).sndOn = s.sndOn := rfl
@[simp] theorem refreshKeys_fault (s : State) : (refreshKeys s).fault = s.fault := rfl
@[simp] theorem refreshKeys_cfgShift (s : State) : (refreshKeys s).cfgShift = s.cfgShift := rfl
@[simp] theorem refreshKeys_cfgJump (s : State) : (refreshKeys s).cfgJump = s.cfgJump := rfl
@[simp] theorem refreshKeys_cfgLdst (s : State) : (refreshKeys s).cfgLdst = s.cfgLdst := rfl
@[simp] theorem refreshKeys_fr (s : State) : (refreshKeys s).fr = s.fr := rfl
@[simp] theorem refreshKeys_par (s : State) : (refreshKeys s).par = s.par := rfl
@[simp] theorem refreshKeys_randTape (s : State) : (refreshKeys s).randTape = s.randTape := rfl
@[simp] theorem refreshKeys_lastKeyState (s : State) : (refreshKeys s).lastKeyState = s.nextKeys := rfl
@[simp] theorem refreshKeys_keyTape (s : State) : (refreshKeys s).keyTape = s.keyTape.tail := rfl
@[simp] theorem refreshKeys_draws (s : State) : (refreshKeys s).draws = s.draws + 1 := rfl
@[simp] theorem refreshKeys_out (s : State) : (refreshKeys s).out = s.out ++ [.poll] := rfl
@[simp] theorem refreshKeys_reg (s : State) (x : Nibble) : (refreshKeys s).reg x = s.reg x := rfl
@[simp] theorem refreshKeys_memByte (s : State) (a : Nat) : memByte (refreshKeys s) a = memByte s a := rfl
@[simp] theorem refreshKeys_pixel (s : State) (x y : Nat) : pixel (refreshKeys s) x y = pixel s x y := rfl

/-! ### One step -/

theorem step_faulted {s : State} (h : s.fault = true) : step s = .next (clearOut s) := by
  rw [step, if_pos h]

/-- A step of a core that is not faulted, when the fetch finds its two bytes. -/
theorem step_fetched {s : State} (hf : s.fault = false) (hr : s.fr ≠ 0) (h : s.pc.toNat ≤ 0xFFE) :
    step s = endCycle ((beforeFetch s).setPc (s.pc + 2))
      (exec (decode (memByte s s.pc.toNat ++ memByte s (s.pc.toNat + 1))) ((beforeFetch s).setPc (s.pc + 2))) := by
  have e := fetch_ok (s := beforeFetch s) (by rw [beforeFetch_pc]; exact h)
  simp only [beforeFetch_pc, beforeFetch_memByte] at e
  rw [step, if_neg (by rw [hf]; decide), if_neg hr, e]

/-- A step of a core that is not faulted, when the fetch needs a byte above 0xFFF. -/
theorem step_fetch_fault {s : State} (hf : s.fault = false) (hr : s.fr ≠ 0) (h : 0xFFE < s.pc.toNat) :
    step s = .next (takeAddrFault (max s.pc.toNat 0x1000) (beforeFetch s)) := by
  have e := fetch_fault (s := beforeFetch s) (by rw [beforeFetch_pc]; exact h)
  simp only [beforeFetch_pc] at e
  rw [step, if_neg (by rw [hf]; decide), if_neg hr, e]
  rfl

/-- Everything a step that answers a next state can have done. -/
theorem step_cases {s u : State} (h : step s = .next u) :
    (s.fault = true ∧ u = clearOut s) ∨
    (s.fault = false ∧ s.fr ≠ 0 ∧
      ((0xFFE < s.pc.toNat ∧ u = takeAddrFault (max s.pc.toNat 0x1000) (beforeFetch s)) ∨
       (s.pc.toNat ≤ 0xFFE ∧ ∃ i, i = decode (memByte s s.pc.toNat ++ memByte s (s.pc.toNat + 1)) ∧
         ((∃ t, exec i ((beforeFetch s).setPc (s.pc + 2)) = .next t ∧ u = refreshKeys t) ∨
          (∃ a, exec i ((beforeFetch s).setPc (s.pc + 2)) = .fault (.addrFault a) ∧
            u = takeAddrFault a ((beforeFetch s).setPc (s.pc + 2))))))) := by
  by_cases hf : s.fault = true
  · rw [step_faulted hf] at h
    exact .inl ⟨hf, by simpa using h.symm⟩
  · have hf' : s.fault = false := by simpa using hf
    by_cases hr : s.fr = 0
    · rw [step, if_neg hf, if_pos hr] at h; cases h
    · refine .inr ⟨hf', hr, ?_⟩
      by_cases hp : s.pc.toNat ≤ 0xFFE
      · rw [step_fetched hf' hr hp] at h
        refine .inr ⟨hp, _, rfl, ?_⟩
        cases e : exec (decode (memByte s s.pc.toNat ++ memByte s (s.pc.toNat + 1)))
            ((beforeFetch s).setPc (s.pc + 2)) with
        | next t => rw [e] at h; exact .inl ⟨t, rfl, by simpa using h.symm⟩
        | fault f => rw [e] at h; cases f with | addrFault a => exact .inr ⟨a, rfl, by simpa [takeFault] using h.symm⟩
        | refused r => rw [e] at h; simp at h
      · rw [step_fetch_fault hf' hr (by omega)] at h
        exact .inl ⟨by omega, by simpa using h.symm⟩

end Sys2Proof.Machine
end

