-- ==== Sys2Proof/Tests/Slice0.lean ====
section
/-! SUPPORT. The package's own tests: the well-formedness smoke test, words written out from 30_encoding.md R65, one-step tests whose expected results are the vectors of spec/95_test_vectors.md (named in each docstring) or hand calculation from a rule, and one witness for every statement that has hypotheses. -/

namespace Sys2Proof.Tests

open Sys2Proof Sys2Proof.Machine

/-- The state one step leaves when `w` is the instruction at PC (the reset state where there is none). -/
def after (w : Nat) (s : State) : State :=
  match step (s.withFetchWord 16 w) with
  | .next t => t
  | _ => State.reset

/-- The reset state with `V[0]` and `V[1]` set. -/
def regs (a b : Byte) : State := (State.reset.setReg 0 a).setReg 1 b

/-- The reset state with `V[x]` set. -/
def oneReg (x : Nibble) (a : Byte) : State := State.reset.setReg x a

/-- The reset state with samples lined up for the key port. -/
def withKeys (s : State) (ks : List Half) : State := { s with keyTape := ks }

/-- The reset state with `I` set and bytes stored from there on. -/
def withSprite (s : State) (i : Half) (bs : List Byte) : State := { s with i := i, mem := fillBytes s.mem i.toNat bs }

/-- The alpha regime. -/
def alphaParams : Config.Params := { Config.defaultParams with pixelMode := .alpha }

/-- A state of the invariant that is not the reset state: full stack, remainders at 1, PC at the last fetchable address. -/
def edge : State := { State.reset with pc := 0xFFE, sp := 16, drem := 1, srem := 1 }

/-! ### Well-formedness: the one check (30_encoding.md R67) and a term it refuses, per family -/

theorem test_wellFormed_refuses_nop_of_CLS : (Instr.nop 0x00E0).wellFormed = false := by decide
theorem test_wellFormed_refuses_nop_of_LD_reg : (Instr.nop 0x8120).wellFormed = false := by decide
theorem test_wellFormed_refuses_nop_of_SKP : (Instr.nop 0xE19E).wellFormed = false := by decide
theorem test_wellFormed_refuses_nop_of_LD_regs : (Instr.nop 0xFF65).wellFormed = false := by decide
theorem test_wellFormed_refuses_nop_of_JP : (Instr.nop 0x1204).wellFormed = false := by decide
theorem test_wellFormed_accepts_unassigned :
    ([0x0000, 0x8018, 0x801F, 0xE09F, 0xF000, 0xFFFF].all fun w => (Instr.nop w).wellFormed) = true := by decide

/-! ### Decoding: every constructor from a word written out from 30_encoding.md R65, R67 -/

theorem test_decode_0 : decode 0x00E0 = .cls 0 ∧ decode 0x0AE0 = .cls 0xA ∧ decode 0x00EE = .ret 0 ∧
    decode 0x0000 = .nop 0 ∧ decode 0x0EE0 = .cls 0xE := by decide
theorem test_decode_1_to_7 : decode 0x1234 = .jp 0x234 ∧ decode 0x2FED = .call 0xFED ∧ decode 0x3A12 = .seImm 0xA 0x12 ∧
    decode 0x4B34 = .sneImm 0xB 0x34 ∧ decode 0x5120 = .seReg 1 2 0 ∧ decode 0x6CFE = .ldImm 0xC 0xFE ∧
    decode 0x7D80 = .addImm 0xD 0x80 := by decide
theorem test_decode_8 : decode 0x8120 = .ldReg 1 2 ∧ decode 0x8341 = .orReg 3 4 ∧ decode 0x8562 = .andReg 5 6 ∧
    decode 0x8783 = .xorReg 7 8 ∧ decode 0x89A4 = .addReg 9 0xA ∧ decode 0x8BC5 = .subReg 0xB 0xC ∧
    decode 0x8DE6 = .shr 0xD 0xE ∧ decode 0x8F07 = .subnReg 0xF 0 ∧ decode 0x812E = .shl 1 2 ∧
    decode 0x812F = .nop 0x812F := by decide
theorem test_decode_9_to_D : decode 0x9AB3 = .sneReg 0xA 0xB 3 ∧ decode 0xA300 = .ldI 0x300 ∧ decode 0xB312 = .jpOff 0x312 ∧
    decode 0xC10F = .rnd 1 0x0F ∧ decode 0xD125 = .drw 1 2 5 := by decide
theorem test_decode_E : decode 0xE19E = .skp 1 ∧ decode 0xE2A1 = .sknp 2 ∧ decode 0xE09F = .nop 0xE09F := by decide
theorem test_decode_F : decode 0xF107 = .ldVxDt 1 ∧ decode 0xF20A = .ldVxK 2 ∧ decode 0xF315 = .ldDtVx 3 ∧
    decode 0xF418 = .ldStVx 4 ∧ decode 0xF51E = .addI 5 ∧ decode 0xF629 = .ldF 6 ∧ decode 0xF733 = .ldB 7 ∧
    decode 0xF855 = .stRegs 8 ∧ decode 0xF965 = .ldRegs 9 ∧ decode 0xF075 = .nop 0xF075 := by decide
/-- 20_memory.md R43: the byte at the lower address is the high byte; one byte holds no instruction. -/
theorem test_decodeBytes : decodeBytes [0x12, 0x04, 0x99] = .ok (.jp 0x204, [0x99]) ∧
    decodeBytes [0x12] = .error .truncated := ⟨rfl, rfl⟩
theorem test_decodeTableWord : decodeTableWord 16 0xD125 = some (.drw 1 2 5) := by decide
theorem test_encodeBytes : encodeBytes (.jp 0x204) = [0x12, 0x04] := by decide

/-! ### Reset (10_state.md R30) -/

theorem test_resetWith_default : State.resetWith Config.defaultParams = State.reset := by decide +kernel
/-- 20_memory.md R42: the first byte of glyph 0, the last of glyph F, the bytes around the font, and glyph A. -/
theorem test_reset_font : memByte State.reset 0x050 = 0xF0 ∧ memByte State.reset 0x09F = 0x80 ∧
    memByte State.reset 0x091 = 0xE0 ∧ memByte State.reset 0x04F = 0 ∧ memByte State.reset 0x0A0 = 0 ∧
    (List.range 5).map (fun k => memByte State.reset (0x082 + k)) = [0xF0, 0x90, 0x90, 0xF0, 0x90] := by decide

/-! ### Control flow -/

/-- Vector of R80: a popped address is used as it is, and the slot keeps its content. -/
theorem test_RET : (after 0x00EE { State.reset with sp := 1, stack := State.reset.stack.set 0 0x206 }).pc = 0x206 ∧
    (after 0x00EE { State.reset with sp := 1, stack := State.reset.stack.set 0 0x206 }).sp = 0 ∧
    (after 0x00EE { State.reset with sp := 1, stack := State.reset.stack.set 0 0x206 }).stack[0] = 0x206 := by decide
/-- P6b. -/
theorem test_RET_empty : (after 0x00EE State.reset).pc = 0x202 ∧ (after 0x00EE State.reset).sp = 0 ∧
    (after 0x00EE State.reset).out = [.stackUnderflow, .poll] := by decide
theorem test_JP : (after 0x1204 State.reset).pc = 0x204 ∧ (after 0x1FFF State.reset).pc = 0xFFF := by decide
/-- P2, cycle 3. -/
theorem test_CALL : (after 0x2210 { State.reset with pc := 0x204 }).pc = 0x210 ∧
    (after 0x2210 { State.reset with pc := 0x204 }).sp = 1 ∧
    (after 0x2210 { State.reset with pc := 0x204 }).stack[0] = 0x206 := by decide
/-- P6a, cycle 17. -/
theorem test_CALL_full : (after 0x2200 { State.reset with sp := 16 }).pc = 0x200 ∧
    (after 0x2200 { State.reset with sp := 16 }).sp = 16 ∧
    (after 0x2200 { State.reset with sp := 16 }).out = [.stackOverflow, .poll] := by decide
/-- R83 to R86, their examples. -/
theorem test_SE_imm : (after 0x3100 State.reset).pc = 0x204 ∧ (after 0x3100 (oneReg 1 1)).pc = 0x202 := by decide
theorem test_SNE_imm : (after 0x4211 (oneReg 2 0x10)).pc = 0x204 ∧ (after 0x4210 (oneReg 2 0x10)).pc = 0x202 := by decide
theorem test_SE_reg : (after 0x5010 (regs 7 7)).pc = 0x204 ∧ (after 0x5010 (regs 7 8)).pc = 0x202 := by decide
theorem test_SNE_reg : (after 0x9010 (regs 7 8)).pc = 0x204 ∧ (after 0x9220 (oneReg 2 9)).pc = 0x202 := by decide
/-- F21, F23. -/
theorem test_JP_off : (after 0xB300 ((oneReg 0 4).setReg 3 0x10)).pc = 0x304 ∧
    (after 0xB2F0 { (oneReg 0 1).setReg 2 0x20 with cfgJump := .new }).pc = 0x310 := by decide
/-- F24. -/
theorem test_JP_off_not_reduced : (after 0xBFFF (oneReg 0 0xFF)).pc = 0x10FE := by decide
/-- R66, and the words after "Unassigned family-8 words". -/
theorem test_NOP : (after 0x8018 (regs 3 4)).v = (regs 3 4).v ∧ (after 0x8018 (regs 3 4)).pc = 0x202 ∧
    (after 0x8018 (regs 3 4)).out = [.poll] := by decide

/-! ### Loads, logic and arithmetic -/

/-- A0, A0b, A0d. -/
theorem test_LD_imm : (after 0x61FE State.reset).reg 1 = 0xFE := by decide
theorem test_ADD_imm : (after 0x7001 (oneReg 0 0xFF)).reg 0 = 0 ∧ (after 0x7001 (oneReg 0 0xFF)).reg 0xF = 0 ∧
    (after 0x7F02 (oneReg 0xF 0xFF)).reg 0xF = 1 := by decide
/-- A20. -/
theorem test_LD_reg : (after 0x80F0 (oneReg 0xF 0x33)).reg 0 = 0x33 ∧ (after 0x80F0 (oneReg 0xF 0x33)).reg 0xF = 0x33 := by
  decide
/-- A21 to A23. -/
theorem test_OR : (after 0x8011 ((regs 0xF0 0x0F).setReg 0xF 7)).reg 0 = 0xFF ∧
    (after 0x8011 ((regs 0xF0 0x0F).setReg 0xF 7)).reg 0xF = 7 := by decide
theorem test_AND : (after 0x8012 ((regs 0xF3 0x3F).setReg 0xF 7)).reg 0 = 0x33 ∧
    (after 0x8012 ((regs 0xF3 0x3F).setReg 0xF 7)).reg 0xF = 7 := by decide
theorem test_XOR : (after 0x8013 ((regs 0xFF 0x0F).setReg 0xF 7)).reg 0 = 0xF0 ∧
    (after 0x8013 ((regs 0xFF 0x0F).setReg 0xF 7)).reg 0xF = 7 := by decide
/-- A1, A2. -/
theorem test_ADD_reg : (after 0x8014 (regs 0xFF 1)).reg 0 = 0 ∧ (after 0x8014 (regs 0xFF 1)).reg 0xF = 1 ∧
    (after 0x8014 (regs 1 1)).reg 0 = 2 ∧ (after 0x8014 (regs 1 1)).reg 0xF = 0 := by decide
/-- A6, A7, A8. -/
theorem test_ADD_reg_VF : (after 0x8F14 ((oneReg 0xF 0xF0).setReg 1 0x20)).reg 0xF = 0x10 ∧
    (after 0x80F4 ((oneReg 0xF 1).setReg 0 0xFF)).reg 0xF = 1 ∧ (after 0x8FF4 (oneReg 0xF 0x81)).reg 0xF = 2 := by decide
/-- A9, A10, A11. -/
theorem test_SUB : (after 0x8015 (regs 5 5)).reg 0xF = 0 ∧ (after 0x8015 (regs 1 2)).reg 0 = 0xFF ∧
    (after 0x8015 (regs 0xA 3)).reg 0 = 7 ∧ (after 0x8015 (regs 0xA 3)).reg 0xF = 1 := by decide
/-- A13, A14. -/
theorem test_SUB_VF : (after 0x8F15 ((oneReg 0xF 0x10).setReg 1 1)).reg 0xF = 0xF ∧
    (after 0x80F5 ((oneReg 0xF 4).setReg 0 9)).reg 0 = 5 ∧ (after 0x80F5 ((oneReg 0xF 4).setReg 0 9)).reg 0xF = 1 := by
  decide
/-- A15, A16, A17. -/
theorem test_SUBN : (after 0x8017 (regs 3 0xA)).reg 0 = 7 ∧ (after 0x8017 (regs 3 0xA)).reg 0xF = 1 ∧
    (after 0x8017 (regs 0xA 3)).reg 0 = 0xF9 ∧ (after 0x8017 (regs 7 7)).reg 0xF = 0 := by decide
/-- A30. -/
theorem test_SHR : (after 0x8016 (regs 5 8)).reg 0 = 2 ∧ (after 0x8016 (regs 5 8)).reg 0xF = 1 ∧
    (after 0x8016 { regs 5 8 with cfgShift := .old }).reg 0 = 4 ∧
    (after 0x8016 { regs 5 8 with cfgShift := .old }).reg 0xF = 0 := by decide
/-- A32, A33. -/
theorem test_SHR_VF : (after 0x8F16 ((oneReg 0xF 0xFF).setReg 1 2)).reg 0xF = 0 ∧
    (after 0x80F6 { (oneReg 0xF 3).setReg 0 0x10 with cfgShift := .old }).reg 0 = 1 ∧
    (after 0x80F6 { (oneReg 0xF 3).setReg 0 0x10 with cfgShift := .old }).reg 0xF = 1 := by decide
/-- A34. -/
theorem test_SHL : (after 0x801E (regs 0x81 0x40)).reg 0 = 2 ∧ (after 0x801E (regs 0x81 0x40)).reg 0xF = 1 ∧
    (after 0x801E { regs 0x81 0x40 with cfgShift := .old }).reg 0 = 0x80 ∧
    (after 0x801E { regs 0x81 0x40 with cfgShift := .old }).reg 0xF = 0 := by decide
/-- A36. -/
theorem test_SHL_VF : (after 0x8F1E ((oneReg 0xF 0x80).setReg 1 0x81)).reg 0xF = 2 := by decide

/-! ### Index register and memory -/

/-- M1. -/
theorem test_LD_I : (after 0xA300 State.reset).i = 0x300 := by decide
/-- M3, M4, M5. -/
theorem test_ADD_I : (after 0xF01E { oneReg 0 1 with i := 0xFFF }).i = 0x1000 ∧
    (after 0xF01E { oneReg 0 1 with i := 0xFFF }).reg 0xF = 0 ∧
    (after 0xF01E { oneReg 0 2 with i := 0xFFF }).reg 0xF = 1 ∧
    (after 0xF01E { oneReg 0 1 with i := 0xFFFF }).i = 0 := by decide
/-- M5c, M6. -/
theorem test_ADD_I_VF : (after 0xF01E { (oneReg 0 1).setReg 0xF 1 with i := 0x100 }).reg 0xF = 1 ∧
    (after 0xFF1E { oneReg 0xF 5 with i := 0x1000 }).i = 0x1005 ∧
    (after 0xFF1E { oneReg 0xF 5 with i := 0x1000 }).reg 0xF = 1 := by decide
/-- M8, M9. -/
theorem test_LD_F : (after 0xF029 (oneReg 0 0x1A)).i = 0x82 ∧ (after 0xF029 (oneReg 0 0xFF)).i = 0x9B := by decide
/-- M17. -/
theorem test_LD_B : memByte (after 0xF033 { oneReg 0 123 with i := 0xFFD }) 0xFFD = 1 ∧
    memByte (after 0xF033 { oneReg 0 123 with i := 0xFFD }) 0xFFE = 2 ∧
    memByte (after 0xF033 { oneReg 0 123 with i := 0xFFD }) 0xFFF = 3 := by decide
/-- M18. -/
theorem test_LD_B_fault : (after 0xF033 { oneReg 0 123 with i := 0xFFE }).fault = true ∧
    (after 0xF033 { oneReg 0 123 with i := 0xFFE }).out = [.addrFault 0x1000] := by decide
/-- M19, with `cfg_ldst = old`. -/
theorem test_ST_regs : memByte (after 0xF155 { regs 0x0B 0x16 with i := 0x400, cfgLdst := .old }) 0x401 = 0x16 ∧
    memByte (after 0xF155 { regs 0x0B 0x16 with i := 0x400, cfgLdst := .old }) 0x402 = 0 ∧
    (after 0xF155 { regs 0x0B 0x16 with i := 0x400, cfgLdst := .old }).i = 0x402 ∧
    (after 0xF155 { regs 0x0B 0x16 with i := 0x400 }).i = 0x400 := by decide
/-- M21. -/
theorem test_ST_regs_fault : (after 0xFF55 { State.reset with i := 0xFF1 }).out = [.addrFault 0x1000] := by decide
/-- M23. -/
theorem test_LD_regs : ((after 0xF265 (withSprite (oneReg 3 0x77) 0x300 [2, 5, 4])).v.toList.take 4) = [2, 5, 4, 0x77] ∧
    (after 0xF265 (withSprite (oneReg 3 0x77) 0x300 [2, 5, 4])).i = 0x300 := by decide
/-- M24. -/
theorem test_LD_regs_own_bytes : (after 0xF165 { State.reset with i := 0x200 }).reg 0 = 0xF1 ∧
    (after 0xF165 { State.reset with i := 0x200 }).reg 1 = 0x65 := by decide
/-- The canonical form: writing what an unlisted address reads as removes the entry (log 19). -/
theorem test_memory_canonical : cellWrite blankMem (cellWrite blankMem [] 0x300 5) 0x300 0 = [] ∧
    cellWrite blankMem [(0x300, 5)] 0x050 0xF0 = [(0x300, 5)] ∧
    cellWrite blankMem [(0x300, 5)] 0x050 0 = [(0x050, 0), (0x300, 5)] := by decide

/-! ### Display -/

/-- D12v. -/
theorem test_CLS : (after 0x00E0 { State.resetWith alphaParams with disp := [(0, 255), (325, 100)] }).disp = [] := by
  decide +kernel
/-- D2v: six columns clipped. -/
theorem test_DRW_clipped : (after 0xD011 (withSprite (regs 62 31) 0x300 [0xFF])).disp = [(2046, 1), (2047, 1)] ∧
    (after 0xD011 (withSprite (regs 62 31) 0x300 [0xFF])).reg 0xF = 0 := by decide
/-- D6v: collision. -/
theorem test_DRW_collision : (after 0xD011 { withSprite (regs 0 0) 0x300 [0xC0] with disp := [(0, 1)] }).disp = [(1, 1)] ∧
    (after 0xD011 { withSprite (regs 0 0) 0x300 [0xC0] with disp := [(0, 1)] }).reg 0xF = 1 := by decide
/-- D11v: the alpha regime. -/
theorem test_DRW_alpha : (after 0xD011 { withSprite (State.resetWith alphaParams) 0x300 [0xC0] with
    disp := [(0, 255), (1, 100)] }).disp = [(0, 254), (1, 255)] := by decide +kernel
/-- D13v: the alpha decay. -/
theorem test_alpha_decay : (after 0x0000 { State.resetWith alphaParams with
    disp := [(0, 255), (1, 100), (2, 1)] }).disp = [(0, 255), (1, 99)] := by decide +kernel

/-! ### Keypad, random, timers -/

/-- N1v. -/
theorem test_RND : (after 0xC10F { State.reset with randTape := [0xA7], keyTape := [0] }).reg 1 = 7 ∧
    (after 0xC10F { State.reset with randTape := [0xA7], keyTape := [0] }).out = [.rand, .poll] := by decide
/-- K5, K6, K9. -/
theorem test_SKP : (after 0xE19E (withKeys (oneReg 1 5) [0x0020, 0])).pc = 0x204 ∧
    (after 0xE19E (withKeys (oneReg 1 5) [0xFFDF, 0])).pc = 0x202 ∧
    (after 0xE19E (withKeys (oneReg 1 0x15) [0xFFFF, 0])).pc = 0x202 := by decide
/-- K10, K11, K12. -/
theorem test_SKNP : (after 0xE1A1 (withKeys (oneReg 1 5) [0, 0])).pc = 0x204 ∧
    (after 0xE1A1 (withKeys (oneReg 1 5) [0x0020, 0])).pc = 0x202 ∧
    (after 0xE1A1 (withKeys (oneReg 1 0x10) [0, 0])).pc = 0x202 := by decide
/-- K2, K3, K13: the wait, and the refreshed snapshot. -/
theorem test_LD_Vx_K_waits : (after 0xF10A { withKeys State.reset [0x0010, 0x4000] with pc := 0x206 }).pc = 0x206 ∧
    (after 0xF10A { withKeys State.reset [0x0010, 0x4000] with pc := 0x206, lastKeyState := 0x0010 }).pc = 0x206 ∧
    (after 0xF10A { withKeys State.reset [0x0010, 0x4000] with pc := 0x206 }).lastKeyState = 0x4000 := by decide
/-- K4b, K4d: a release, and a change without one. -/
theorem test_LD_Vx_K_ends : (after 0xF10A { withKeys State.reset [0, 0] with lastKeyState := 0x8100 }).reg 1 = 8 ∧
    (after 0xF10A { withKeys (oneReg 1 0xEE) [3, 0] with lastKeyState := 1 }).reg 1 = 0xEE ∧
    (after 0xF10A { withKeys (oneReg 1 0xEE) [3, 0] with lastKeyState := 1 }).pc = 0x202 := by decide
/-- T1, cycle 4 and 5 (FR = 60): the value read is the decayed one. -/
theorem test_LD_Vx_DT : (after 0xF207 { State.reset with dt := 10, drem := 1 }).reg 2 = 8 ∧
    (after 0xF207 { State.reset with dt := 8 }).reg 2 = 8 := by decide +kernel
theorem test_LD_DT_Vx : (after 0xF015 { oneReg 0 3 with drem := 1 }).dt = 3 ∧
    (after 0xF015 { oneReg 0 3 with drem := 1 }).drem = 1 := by decide +kernel
/-- T8: no toggle in the cycle of the write. -/
theorem test_LD_ST_Vx : (after 0xF018 (oneReg 0 3)).st = 3 ∧ (after 0xF018 (oneReg 0 3)).out = [.poll] ∧
    (after 0xF018 (oneReg 0 3)).sndOn = false := by decide +kernel
/-- T4, FR = 7: 12 (4/7) decays to 3 (1/7); 3 (1/7) saturates at 0 with 5/7. -/
theorem test_decay_7 : decay 7 12 (4 / 7) = (3, 1 / 7) ∧ decay 7 3 (1 / 7) = (0, 5 / 7) := by decide +kernel
/-- T3, FR = 120: a remainder of exactly 1 waits. -/
theorem test_decay_120 : decay 120 3 (1 / 2) = (3, 1) ∧ decay 120 3 1 = (2, 1 / 2) := by decide +kernel
/-- T8, FR = 30, nn = 3, cycle 3: the on-toggle after the decay. -/
theorem test_audio_on : (after 0x0000 { State.reset with st := 3, fr := 30 }).out = [.audioToggle, .poll] ∧
    (after 0x0000 { State.reset with st := 2, fr := 30 }).out = [.poll] := by decide +kernel

/-! ### The cycle and the host -/

/-- P7b. -/
theorem test_fetch_fault : step { State.reset with pc := 0xFFF } =
    .next (takeAddrFault 0x1000 (beforeFetch { State.reset with pc := 0xFFF })) := rfl
/-- R171. -/
theorem test_faulted_step : step { State.reset with fault := true, out := [.poll] } =
    .next { State.reset with fault := true } := rfl
/-- R211, U10. -/
theorem test_broken_stack : step { State.withFetchWord State.reset 16 0x00EE with sp := 17 } =
    .refused .stackCursorOutOfRange := rfl
theorem test_load_too_long : hostMove (.load (List.replicate 3585 0)) State.reset = .refused .loadTooLong := by
  rw [hostMove, hostLoad, if_pos (by rw [List.length_replicate]; decide)]

/-! ### Witnesses: a concrete case that meets each statement's hypotheses, clause by clause at its boundaries -/

theorem edge_inv : edge.Inv :=
  ⟨cellWf_nil _ _, cellWf_nil _ _, fun _ => by decide, fun _ => ⟨zero_le_one, le_refl _⟩, fun _ => ⟨zero_le_one, le_refl _⟩,
    fun _ => by decide, fun _ _ _ _ => .inl rfl⟩

/-- A step inside memory, and the fetch that faults. -/
theorem witness_StepKeepsTheInvariant : edge.Inv ∧ (∃ t, step edge = .next t) ∧ ∃ t, step { edge with pc := 0xFFF } = .next t :=
  ⟨edge_inv, ⟨_, rfl⟩, ⟨_, rfl⟩⟩
theorem witness_HostMovesKeepTheInvariant : edge.Inv ∧ (16 : BitVec 5).toNat ≤ 16 ∧
    (∃ t, hostMove (.debugWrite (.sp 16)) edge = .next t) ∧ ∃ t, hostMove .reset edge = .next t :=
  ⟨edge_inv, by decide, ⟨_, rfl⟩, ⟨_, rfl⟩⟩
theorem witness_DecodeOfEncodeIsTheInstruction : (Instr.nop 0xFFFF).wellFormed = true ∧
    (Instr.drw 0xF 0xF 0xF).wellFormed = true ∧ (Instr.cls 0xF).wellFormed = true := by decide
theorem witness_EncodeOfDecodeIsTheBytes : ([] : List Byte).length < 2 ∧ ([0x12] : List Byte).length < 2 := by decide
/-- The three clauses: an instruction that completes, one that faults, one that is refused, each at the last fetchable address. -/
theorem witness_StepRunsTheDecodedInstruction :
    (∃ s : State, s.fault = false ∧ s.fr ≠ 0 ∧ s.pc.toNat = 0xFFE ∧
      decode (memByte s s.pc.toNat ++ memByte s (s.pc.toNat + 1)) = .jp 0xFFE ∧
      ∃ t, exec (.jp 0xFFE) ((beforeFetch s).setPc (s.pc + 2)) = .next t) ∧
    (∃ s : State, s.fault = false ∧ s.fr ≠ 0 ∧ s.pc.toNat = 0xFFE ∧
      decode (memByte s s.pc.toNat ++ memByte s (s.pc.toNat + 1)) = .ldB 0 ∧
      exec (.ldB 0) ((beforeFetch s).setPc (s.pc + 2)) = .fault (.addrFault 0x1000)) ∧
    ∃ s : State, s.fault = false ∧ s.fr ≠ 0 ∧ s.pc.toNat = 0xFFE ∧
      decode (memByte s s.pc.toNat ++ memByte s (s.pc.toNat + 1)) = .ret 0 ∧
      exec (.ret 0) ((beforeFetch s).setPc (s.pc + 2)) = .refused .stackCursorOutOfRange :=
  ⟨⟨edge.withFetchWord 16 0x1FFE, by decide, by decide, by decide, by decide, ⟨_, rfl⟩⟩,
   ⟨{ edge.withFetchWord 16 0xF033 with i := 0xFFE }, by decide, by decide, by decide, by decide, rfl⟩,
   ⟨{ edge.withFetchWord 16 0x00EE with sp := 17 }, by decide, by decide, by decide, by decide, rfl⟩⟩
theorem witness_FaultedCoreIsStuck : ({ edge with fault := true } : State).fault = true := rfl
theorem witness_OnlyResetClearsTheFault : ({ edge with fault := true } : State).fault = true ∧
    (∃ t, step { edge with fault := true } = .next t) ∧ (∃ t, hostMove (.frWrite 1) { edge with fault := true } = .next t) :=
  ⟨rfl, ⟨_, rfl⟩, ⟨_, rfl⟩⟩
theorem witness_FetchBeyondMemoryFaults : ({ edge with pc := 0xFFF } : State).fault = false ∧ edge.fr ≠ 0 ∧
    0xFFE < ({ edge with pc := 0xFFF } : State).pc.toNat ∧ 0xFFE < ({ edge with pc := 0xFFFF } : State).pc.toNat := by decide
/-- A cycle that completes and one that faults. -/
theorem witness_EventsOfOneCycle : edge.fault = false ∧ (∃ t, step edge = .next t ∧ t.fault = false) ∧
    ∃ t, step { edge with pc := 0xFFF } = .next t ∧ t.fault = true := ⟨rfl, ⟨_, rfl, rfl⟩, ⟨_, rfl, rfl⟩⟩
/-- A cycle with an edge, and one without. -/
theorem witness_AudioTogglesExactlyOnEdges : (∃ t, step edge = .next t ∧ t.fault = false ∧ t.out = [.poll]) ∧
    ∃ t, step { edge with sndOn := true } = .next t ∧ t.fault = false ∧ t.out = [.audioToggle, .poll] :=
  ⟨⟨_, rfl, rfl, rfl⟩, ⟨_, rfl, rfl, rfl⟩⟩
/-- FR = 60: from a remainder of 0 the sum is exactly 1 and waits, from a remainder of 1 it exceeds 1; and the stopped timer. -/
theorem witness_TimersDecayByExactTicks : State.reset.fr ≠ 0 ∧ State.reset.dt = 0 ∧
    (({ State.reset with dt := 1, st := 1 } : State).dt ≠ 0 ∧ (0 : Rat) + 60 / ((60 : Half).toNat : Rat) ≤ 1) ∧
    (({ edge with dt := 1, st := 255 } : State).st ≠ 0 ∧ 1 < edge.srem + 60 / ((60 : Half).toNat : Rat)) := by decide +kernel
theorem witness_TotalDecrementOfATimer : (60 : Half) ≠ 0 ∧
    60 * ((2 : Nat) : Rat) / ((60 : Half).toNat : Rat) < ((3 : Byte).toNat : Rat) := by decide +kernel
theorem witness_TimerRateIsInvariant : 2 * 0 ≤ (0 : Byte).toNat ∧ 2 * 127 ≤ (254 : Byte).toNat := by decide
theorem witness_AlphaDecayFadesCells : Display.wf [(0, 255), (1, 100), (2047, 1)] ∧ alphaParams.pixelMode = .alpha ∧
    Config.defaultParams.pixelMode = .binary := by decide
/-- The words at both ends of the fetchable range, from two families. -/
theorem witness_UnassignedWordsOnlyPassTheCycle : edge.fault = false ∧ edge.fr ≠ 0 ∧ edge.pc.toNat ≤ 0xFFE ∧
    (0x0000 : Half) = memByte edge edge.pc.toNat ++ memByte edge (edge.pc.toNat + 1) ∧
    (∀ r ∈ opcodeMap, (0x0000 : Half) &&& r.2.1 ≠ r.1) ∧ (∀ r ∈ opcodeMap, (0x812F : Half) &&& r.2.1 ≠ r.1) := by decide
theorem witness_KeySnapshotIsRefreshed : (∃ t, step (withKeys edge [7]) = .next t ∧ t.fault = false) ∧
    (∃ t, step ((withKeys edge [7, 9]).withFetchWord 16 0xE19E) = .next t ∧ t.fault = false) ∧
    (Instr.skp 1).mnemonic ∈ ["SKP", "SKNP", "LD_Vx_K"] ∧ (Instr.nop 0).mnemonic ∉ ["SKP", "SKNP", "LD_Vx_K"] :=
  ⟨⟨_, rfl, rfl⟩, ⟨_, rfl, rfl⟩, by decide, by decide⟩
/-- In the binary regime, and in the alpha regime with a cell at each end of what fades and one at 255. -/
theorem witness_ParkedCoreStaysParked : let s := edge.withFetchWord 16 0x1FFE
    let u := { s with par := alphaParams, disp := [(0, 1), (1, 254), (2047, 255)] }
    (s.fault = false ∧ s.fr ≠ 0 ∧ s.pc.toNat ≤ 0xFFE ∧
      decode (memByte s s.pc.toNat ++ memByte s (s.pc.toNat + 1)) = .jp (s.pc.setWidth 12) ∧ s.par.pixelMode = .binary) ∧
    (u.fault = false ∧ u.fr ≠ 0 ∧ u.pc.toNat ≤ 0xFFE ∧
      decode (memByte u u.pc.toNat ++ memByte u (u.pc.toNat + 1)) = .jp (u.pc.setWidth 12) ∧
      u.par.pixelMode = .alpha ∧ Display.wf u.disp) := by
  decide
/-- The last two bytes of memory, its last byte alone, and PC just above memory. -/
theorem witness_ZeroMemoryStepsAsNoOps : edge.fault = false ∧ edge.fr ≠ 0 ∧ edge.pc.toNat = 0xFFE ∧
    (∀ a, edge.pc.toNat ≤ a → a ≤ 0xFFF → memByte edge a = 0) ∧
    (∀ a, ({ edge with pc := 0xFFF } : State).pc.toNat ≤ a → a ≤ 0xFFF → memByte edge a = 0) ∧
    ∀ a, ({ edge with pc := 0x1000 } : State).pc.toNat ≤ a → a ≤ 0xFFF → memByte edge a = 0 := by
  have h : ∀ a, 0x200 ≤ a → memByte edge a = 0 := fun a h =>
    if_neg (by omega)
  exact ⟨by decide, by decide, by decide, fun a h1 _ => h a (le_trans (by decide) h1),
    fun a h1 _ => h a (le_trans (by decide) h1), fun a h1 _ => h a (le_trans (by decide) h1)⟩
theorem witness_InstructionsCannotReachHostState : (∃ t, exec (.addI 0) edge = .next t) ∧ ∃ t, exec (.stRegs 0) edge = .next t :=
  ⟨⟨_, rfl⟩, ⟨_, rfl⟩⟩
/-- An instruction outside every list, and one inside each list of the statement's exceptions. -/
theorem witness_EachUnitHasItsInstructions : (∃ t, exec (.jp 0) edge = .next t) ∧ (∃ t, exec (.call 0) edge = .next t) ∧
    (∃ t, exec (.drw 0 0 0) edge = .next t) ∧ ∃ t, exec (.rnd 0 0) edge = .next t :=
  ⟨⟨_, rfl⟩, ⟨_, rfl⟩, ⟨_, rfl⟩, ⟨_, rfl⟩⟩
/-- The highest place a store can reach and be fetched next: PC = 0xFFC, I = 0xFFE, two bytes. -/
theorem witness_StoreIsSeenByTheNextFetch : let s := State.withFetchWord { State.reset with pc := 0xFFC, i := 0xFFE } 16 0xF155
    s.fault = false ∧ s.fr ≠ 0 ∧ s.pc.toNat ≤ 0xFFE ∧ 1 ≤ (1 : Nibble).toNat ∧
    decode (memByte s s.pc.toNat ++ memByte s (s.pc.toNat + 1)) = .stRegs 1 ∧ s.i = s.pc + 2 ∧
    s.i.toNat + (1 : Nibble).toNat ≤ 0xFFF := by decide
theorem witness_OffsetJumpAddsARegister : State.reset.cfgJump = .old ∧
    ({ State.reset with cfgJump := .new } : State).cfgJump = .new := by decide
/-- Room for one more, and a full stack. -/
theorem witness_CallPushesAndJumps : ({ State.reset with sp := 15 } : State).sp.toNat < 16 ∧ edge.sp.toNat = 16 ∧
    edge.sp.toNat ≤ 16 := by decide
/-- The full stack (k = 15), one item (k = 0), and the empty stack. -/
theorem witness_ReturnPopsThePc : edge.sp.toNat = 15 + 1 ∧ ({ State.reset with sp := 1 } : State).sp.toNat = 0 + 1 ∧
    State.reset.sp.toNat = 0 := by decide
theorem witness_ReturnUndoesCall : ({ State.reset with sp := 15 } : State).sp.toNat < 16 ∧ State.reset.sp.toNat < 16 := by decide
theorem witness_BrokenStackIsRefused : 16 < ({ State.reset with sp := 17 } : State).sp.toNat ∧
    16 < ({ State.reset with sp := 31 } : State).sp.toNat := by decide
theorem witness_AddSetsTheCarry : (0xE : Nibble) ≠ 0xF := by decide
theorem witness_SubtractionsSetNoBorrow : (0 : Nibble) ≠ 0xF := by decide
theorem witness_ShiftsMoveOneBit : ((regs 5 8).reg 0 = if (regs 5 8).cfgShift = .old then (regs 5 8).reg 1 else (regs 5 8).reg 0) ∧
    (8 : Byte) = (if ({ regs 5 8 with cfgShift := .old } : State).cfgShift = .old then (regs 5 8).reg 1 else (regs 5 8).reg 0) ∧
    (0 : Nibble) ≠ 0xF := by decide
theorem witness_FlagRegisterAsOperand : (0 : Nibble) ≠ 0xF ∧ (0xE : Nibble) ≠ 0xF ∧ State.reset.cfgShift = .new ∧
    ({ State.reset with cfgShift := .old } : State).cfgShift = .old := by decide
theorem witness_DecimalDigitsAreStored : ({ State.reset with i := 0xFFD } : State).i.toNat ≤ 0xFFD ∧
    0xFFF < ({ State.reset with i := 0xFFE } : State).i.toNat + 2 := by decide
theorem witness_BulkStoreWritesTheRegisters : ({ State.reset with i := 0xFF0 } : State).i.toNat + (0xF : Nibble).toNat ≤ 0xFFF ∧
    0xFFF < ({ State.reset with i := 0xFF1 } : State).i.toNat + (0xF : Nibble).toNat := by decide
/-- In range, out of range, and the round trip from the state the store left. -/
theorem witness_BulkLoadReadsTheRegisters : ({ State.reset with i := 0xFFF } : State).i.toNat + (0 : Nibble).toNat ≤ 0xFFF ∧
    0xFFF < ({ State.reset with i := 0x1000 } : State).i.toNat + (0 : Nibble).toNat ∧
    ∃ t, exec (.stRegs 0xF) { State.reset with i := 0xFF0 } = .next t ∧ t.i = 0xFF0 :=
  ⟨by decide, by decide, _, rfl, rfl⟩
theorem witness_OutOfRangeAccessReportsTheFirstByte : 0xFFD < ({ State.reset with i := 0xFFE } : State).i.toNat ∧
    0xFFF < ({ State.reset with i := 0xFFF } : State).i.toNat + (1 : Nibble).toNat ∧
    min (2 : Nibble).toNat (32 - (if (1 : Nibble) = 0xF then 0 else (regs 0 30).reg 1).toNat % 32) = 2 ∧
    0x1000 < ({ State.reset with i := 0xFFF } : State).i.toNat + 2 ∧
    min (0xF : Nibble).toNat (32 - (if (1 : Nibble) = 0xF then 0 else (regs 0 31).reg 1).toNat % 32) = 1 ∧
    ({ State.reset with i := 0xFFF } : State).i.toNat + 1 ≤ 0x1000 ∧
    min (0 : Nibble).toNat (32 - (if (0xF : Nibble) = 0xF then 0 else (regs 0 31).reg 0xF).toNat % 32) = 0 := by decide
/-- No row to draw with I far outside memory; the last row of memory on the last row of the display; a coordinate from VF. -/
theorem witness_DrawTogglesTheSpriteCells : (min (0 : Nibble).toNat (32 - (regs 0 0).reg 1 % 32).toNat = 0) ∧
    min (2 : Nibble).toNat (32 - ((regs 0 31).reg 1).toNat % 32) = 1 ∧
    ({ State.reset with i := 0xFFF } : State).i.toNat + 1 ≤ 0x1000 ∧ (if (0xF : Nibble) = 0xF then 0 else 9) % 64 = 0 := by
  decide
theorem witness_DrawingTwiceRestoresTheDisplay : State.reset.par.pixelMode = .binary ∧
    (∀ cx cy, pixel State.reset cx cy = 0 ∨ pixel State.reset cx cy = 1) ∧ ∃ t, exec (.drw 0 0xF 0xF) State.reset = .next t :=
  ⟨rfl, fun _ _ => .inl rfl, ⟨_, rfl⟩⟩
theorem witness_FramebufferIsRowMajor : 63 < 64 ∧ 31 < 32 := by decide
theorem witness_RandomByteIsMasked : ({ State.reset with randTape := [0xA7] } : State).randTape = 0xA7 :: [] := rfl
theorem witness_KeySkipsTestOneKey : (withKeys State.reset [0x20, 0]).keyTape = 0x20 :: [0] := rfl
/-- No key before; the same keys; key 8 released, key 15 too; a second key pressed and none released. -/
theorem witness_KeyWaitEndsOnRelease : State.reset.lastKeyState = 0 ∧ (0x10 : Half) = 0x10 ∧
    ((0x8100 : Half) ≠ 0 ∧ (0x8100 : Half) ≠ 0 ∧ (0x8100 : Half).getLsbD 8 = true ∧ (0 : Half).getLsbD 8 = false ∧
      ∀ l, l < 8 → (0x8100 : Half).getLsbD l = true → (0 : Half).getLsbD l = true) ∧
    ((1 : Half) ≠ 0 ∧ (1 : Half) ≠ 3 ∧ ∀ j, j < 16 → (1 : Half).getLsbD j = true → (3 : Half).getLsbD j = true) := by decide
theorem witness_LoadPlacesTheProgram : (List.replicate 3584 (0 : Byte)).length ≤ 3584 ∧ State.reset.fault = false ∧
    3584 < (List.replicate 3585 (0 : Byte)).length ∧ ({ State.reset with fault := true } : State).fault = true := by
  simp only [List.length_replicate]; decide
theorem witness_ConfigurationWritesStoreOnly : ∃ t, exec (.ldImm 0 1) edge = .next t := ⟨_, rfl⟩
theorem witness_FrameRateWriteStoresOnly : (1 : Half) ≠ 0 ∧ (0xFFFF : Half) ≠ 0 ∧ (0 : Half) = 0 := by decide

end Sys2Proof.Tests
end

namespace Sys2Proof

/-! ### The decoder follows the opcode map (30_encoding.md R64, R65) -/

/-- Some row of the opcode map matches the word and names the instruction. -/
def SelectedByRow (w : Half) (i : Instr) : Prop := ∃ r ∈ opcodeMap, w &&& r.2.1 = r.1 ∧ i.mnemonic = r.2.2

/-! The three masks of the map keep the leading nibble, it and N, or it and NN. -/

theorem and_maskOp (w : Half) : w &&& 0xF000 = wordXYN (opOf w) 0 0 0 :=
  (masked_eq_iff w 0xF 0 0 0 _ _ _ _).2
    ⟨BitVec.and_allOnes, BitVec.and_zero, BitVec.and_zero, BitVec.and_zero⟩

theorem and_maskOpN (w : Half) : w &&& 0xF00F = wordXYN (opOf w) 0 0 (nOf w) :=
  (masked_eq_iff w 0xF 0 0 0xF _ _ _ _).2
    ⟨BitVec.and_allOnes, BitVec.and_zero, BitVec.and_zero, BitVec.and_allOnes⟩

theorem and_maskOpNN (w : Half) : w &&& 0xF0FF = wordXNN (opOf w) 0 (nnOf w) := by
  have fields : w &&& 0xF0FF = wordXYN (opOf w) 0 (yOf w) (nOf w) :=
    (masked_eq_iff w 0xF 0 0xF 0xF _ _ _ _).2
      ⟨BitVec.and_allOnes, BitVec.and_zero, BitVec.and_allOnes, BitVec.and_allOnes⟩
  apply BitVec.eq_of_toNat_eq
  rw [fields, wordXYN_toNat, wordXNN_toNat, nnOf_eq_fields]
  omega

/-! A word whose fields are those of a row is selected by it, one lemma per mask. -/

section Rows
variable {w : Half} {i : Instr} {op k : Nat}

theorem selectedByRow_of_op (hop : (opOf w).toNat = op)
    (hr : (wordXYN (.ofNat 4 op) 0 0 0, 0xF000, i.mnemonic) ∈ opcodeMap) : SelectedByRow w i := by
  subst hop
  exact ⟨_, hr, by simpa using and_maskOp w, rfl⟩

theorem selectedByRow_of_opN (hop : (opOf w).toNat = op) (hn : (nOf w).toNat = k)
    (hr : (wordXYN (.ofNat 4 op) 0 0 (.ofNat 4 k), 0xF00F, i.mnemonic) ∈ opcodeMap) : SelectedByRow w i := by
  subst hop hn
  exact ⟨_, hr, by simpa using and_maskOpN w, rfl⟩

theorem selectedByRow_of_opNN (hop : (opOf w).toNat = op) (hnn : (nnOf w).toNat = k)
    (hr : (wordXNN (.ofNat 4 op) 0 (.ofNat 8 k), 0xF0FF, i.mnemonic) ∈ opcodeMap) : SelectedByRow w i := by
  subst hop hnn
  exact ⟨_, hr, by simpa using and_maskOpNN w, rfl⟩

end Rows

theorem decode0_cases {w : Half} (hop : (opOf w).toNat = 0x0) :
    decode0 w = .nop w ∨ SelectedByRow w (decode0 w) := by
  unfold decode0
  split
  case h_3 => exact .inl rfl
  all_goals exact .inr (selectedByRow_of_opNN hop (by assumption) (by simp [opcodeMap, wordXNN, Instr.mnemonic]))

theorem decode8_cases {w : Half} (hop : (opOf w).toNat = 0x8) :
    decode8 w = .nop w ∨ SelectedByRow w (decode8 w) := by
  unfold decode8
  split
  case h_10 => exact .inl rfl
  all_goals exact .inr (selectedByRow_of_opN hop (by assumption) (by simp [opcodeMap, wordXYN, Instr.mnemonic]))

theorem decodeE_cases {w : Half} (hop : (opOf w).toNat = 0xE) :
    decodeE w = .nop w ∨ SelectedByRow w (decodeE w) := by
  unfold decodeE
  split
  case h_3 => exact .inl rfl
  all_goals exact .inr (selectedByRow_of_opNN hop (by assumption) (by simp [opcodeMap, wordXNN, Instr.mnemonic]))

theorem decodeF_cases {w : Half} (hop : (opOf w).toNat = 0xF) :
    decodeF w = .nop w ∨ SelectedByRow w (decodeF w) := by
  unfold decodeF
  split
  case h_10 => exact .inl rfl
  all_goals exact .inr (selectedByRow_of_opNN hop (by assumption) (by simp [opcodeMap, wordXNN, Instr.mnemonic]))

/-- Every word is a no-op or is decoded to the instruction of a row that matches it. -/
theorem decode_cases (w : Half) : decode w = .nop w ∨ SelectedByRow w (decode w) := by
  unfold decode
  split
  case h_1 hop => exact decode0_cases hop
  case h_9 hop => exact decode8_cases hop
  case h_15 hop => exact decodeE_cases hop
  case h_16 =>
    have hop : (opOf w).toNat = 0xF := by
      have := (opOf w).isLt
      simp only [imp_false] at *
      omega
    exact decodeF_cases hop
  all_goals exact .inr (selectedByRow_of_op (by assumption) (by simp [opcodeMap, wordXYN, Instr.mnemonic]))

theorem decode_eq_nop_of_no_row {w : Half} (h : ∀ r ∈ opcodeMap, w &&& r.2.1 ≠ r.1) : decode w = .nop w :=
  (decode_cases w).resolve_right fun ⟨r, hr, hw, _⟩ => h r hr hw

end Sys2Proof

namespace Sys2Proof.Machine

/-! ### A cycle whose instruction does nothing (30_encoding.md R66) -/

theorem State.unchangedBut_refl (s : State) (parts : List Part) : s.unchangedBut s parts := by
  intro p _
  cases p <;> simp [Part.same]

theorem exec_nop (w : Half) (s : State) : exec (.nop w) s = .next s := rfl

/-- The frame of steps 1 to 4, a new PC and the key refresh, with no instruction between. -/
theorem unchangedBut_refreshKeys_setPc (s : State) (a : Half) :
    s.unchangedBut (refreshKeys ((beforeFetch s).setPc a))
      [.pc, .dt, .st, .remainders, .sndOn, .lastKeyState, .disp, .inputs, .events] := by
  intro p hp
  cases p with
  | pc | dt | st | remainders | sndOn | lastKeyState | disp | inputs | events => simp at hp
  | reg | index | mem | stack | fault | toggles | frameRate | params => simp [Part.same]

theorem step_of_nop {s : State} (hf : s.fault = false) (hr : s.fr ≠ 0) (hp : s.pc.toNat ≤ 0xFFE) {w : Half}
    (hw : decode (memByte s s.pc.toNat ++ memByte s (s.pc.toNat + 1)) = .nop w) :
    step s = .next (refreshKeys ((beforeFetch s).setPc (s.pc + 2))) := by
  rw [step_fetched hf hr hp, hw, exec_nop, endCycle_next]

/-- Settles O18: a word that no row matches decodes to the no-op, and a step on a no-op is the cycle around it. -/
theorem unassignedWordsOnlyPassTheCycle : Obligations.UnassignedWordsOnlyPassTheCycle := by
  unfold Obligations.UnassignedWordsOnlyPassTheCycle
  refine ⟨fun w s => ⟨s, exec_nop w s, s.unchangedBut_refl []⟩, ?_⟩
  rintro s _ hf hr hp rfl hrow
  exact ⟨_, step_of_nop hf hr hp (decode_eq_nop_of_no_row hrow), rfl, by simp, by simp, by simp, by simp, by simp,
    unchangedBut_refreshKeys_setPc s _⟩

end Sys2Proof.Machine

namespace Sys2Proof.Machine

/-! ### Jumps and skips: the instructions that write PC alone (40_control_flow.md R81, R83 to R88) -/

theorem State.unchangedBut_setPc (s : State) (a : Half) : s.unchangedBut (s.setPc a) [.pc] := by
  intro p hp
  cases p with
  | pc => simp at hp
  | reg | index | mem | disp | stack | dt | st | remainders | lastKeyState | sndOn | fault | toggles | frameRate |
    params | inputs | events => simp [Part.same]

theorem exec_jp (nnn : Addr) (s : State) : exec (.jp nnn) s = .next (s.setPc (addr16 nnn)) := rfl

theorem exec_jpOff (nnn : Addr) (s : State) :
    exec (.jpOff nnn) s = .next (s.setPc (jumpTarget nnn (jumpOffset nnn s))) := rfl

theorem exec_seImm (x : Nibble) (nn : Byte) (s : State) :
    exec (.seImm x nn) s = .next (s.skipIf (s.reg x == nn)) := rfl

theorem exec_sneImm (x : Nibble) (nn : Byte) (s : State) :
    exec (.sneImm x nn) s = .next (s.skipIf (s.reg x != nn)) := rfl

theorem exec_seReg (x y g : Nibble) (s : State) :
    exec (.seReg x y g) s = .next (s.skipIf (s.reg x == s.reg y)) := rfl

theorem exec_sneReg (x y g : Nibble) (s : State) :
    exec (.sneReg x y g) s = .next (s.skipIf (s.reg x != s.reg y)) := rfl

theorem addr16_toNat (nnn : Addr) : (addr16 nnn).toNat = nnn.toNat :=
  BitVec.toNat_setWidth_of_le (by decide)

theorem offsetReg_eq (nnn : Addr) : offsetReg nnn = BitVec.ofNat 4 (nnn.toNat / 256) := by
  apply BitVec.eq_of_toNat_eq
  simp [offsetReg, Nat.shiftRight_eq_div_pow]

theorem jumpOffset_old {nnn : Addr} {s : State} (h : s.cfgJump = .old) : jumpOffset nnn s = s.reg 0 := by
  simp only [jumpOffset, h]

theorem jumpOffset_new {nnn : Addr} {s : State} (h : s.cfgJump = .new) :
    jumpOffset nnn s = s.reg (BitVec.ofNat 4 (nnn.toNat / 256)) := by
  simp only [jumpOffset, h, offsetReg_eq]

/-- The sum of a 12-bit and an 8-bit number fits in PC, so none of it is lost. -/
theorem jumpTarget_toNat (nnn : Addr) (off : Byte) : (jumpTarget nnn off).toNat = nnn.toNat + off.toNat := by
  have hnnn := nnn.isLt
  have hoff := off.isLt
  rw [jumpTarget, BitVec.toNat_ofNat, Nat.mod_eq_of_lt (by omega)]

/-- Settles O27. -/
theorem jumpSetsThePc : Obligations.JumpSetsThePc := by
  unfold Obligations.JumpSetsThePc
  intro nnn s
  exact ⟨_, exec_jp nnn s, addr16_toNat nnn, s.unchangedBut_setPc _⟩

/-- Settles O28: the target is the exact sum, and the toggle chooses the register added. -/
theorem offsetJumpAddsARegister : Obligations.OffsetJumpAddsARegister := by
  unfold Obligations.OffsetJumpAddsARegister
  intro nnn s
  refine ⟨_, exec_jpOff nnn s, s.unchangedBut_setPc _, ?_, ?_⟩
  · intro hold
    rw [State.setPc_pc, jumpTarget_toNat, jumpOffset_old hold]
  · intro hnew
    rw [State.setPc_pc, jumpTarget_toNat, jumpOffset_new hnew]

/-- An instruction that only skips, on a test that decides `p`, moves PC on exactly when `p` holds. -/
theorem skip_moves_pc_iff {i : Instr} {s : State} {c : Bool} {p : Prop} [Decidable p]
    (hi : exec i s = .next (s.skipIf c)) (hc : c = true ↔ p) :
    ∃ t, exec i s = .next t ∧ t.pc = (if p then s.pc + 2 else s.pc) ∧ s.unchangedBut t [.pc] :=
  ⟨_, hi, if_congr hc rfl rfl, s.unchangedBut_setPc _⟩

/-- Settles O33: the four skips differ in the test only. -/
theorem skipsAdvanceByTwoMore : Obligations.SkipsAdvanceByTwoMore := by
  unfold Obligations.SkipsAdvanceByTwoMore
  intro x y g nn s
  exact ⟨skip_moves_pc_iff (exec_seImm x nn s) beq_iff_eq, skip_moves_pc_iff (exec_sneImm x nn s) bne_iff_ne,
    skip_moves_pc_iff (exec_seReg x y g s) beq_iff_eq, skip_moves_pc_iff (exec_sneReg x y g s) bne_iff_ne⟩

end Sys2Proof.Machine

namespace Sys2Proof.Machine

/-! ### Register assignment: a write of one register is all it does (41_alu.md R102) -/

theorem State.unchangedBut_setReg (s : State) (x : Nibble) (b : Byte) : s.unchangedBut (s.setReg x b) [.reg x] := by
  intro p hp
  cases p with
  | reg y =>
    have hy : y ≠ x := by simpa using hp
    exact s.reg_setReg_ne b hy
  | pc | index | mem | disp | stack | dt | st | remainders | lastKeyState | sndOn | fault | toggles | frameRate |
    params | inputs | events => simp [Part.same]

theorem exec_ldReg (x y : Nibble) (s : State) : exec (.ldReg x y) s = .next (s.setReg x (s.reg y)) := rfl

/-- Settles O35. -/
theorem assignCopiesARegister : Obligations.AssignCopiesARegister := by
  unfold Obligations.AssignCopiesARegister
  intro x y s
  exact ⟨_, exec_ldReg x y s, s.reg_setReg_self x _, s.unchangedBut_setReg x _⟩

end Sys2Proof.Machine

namespace Sys2Proof.Machine

/-! ### What setting I, memory or a run of registers leaves unchanged -/

theorem State.unchangedBut_setI (s : State) (a : Half) : s.unchangedBut (s.setI a) [.index] := by
  intro p hp
  cases p with
  | index => simp at hp
  | reg | pc | mem | disp | stack | dt | st | remainders | lastKeyState | sndOn | fault | toggles | frameRate |
    params | inputs | events => simp [Part.same]

theorem State.unchangedBut_setMem (s : State) (m : Cells) : s.unchangedBut (s.setMem m) [.mem] := by
  intro p hp
  cases p with
  | mem => simp at hp
  | reg | pc | index | disp | stack | dt | st | remainders | lastKeyState | sndOn | fault | toggles | frameRate |
    params | inputs | events => simp [Part.same]

theorem State.same_setRegs (s : State) (bs : List Byte) {p : Part} (hp : ∀ k, p ≠ .reg k) :
    p.same s (s.setRegs bs) := by
  cases p with
  | reg k => exact absurd rfl (hp k)
  | pc | index | mem | disp | stack | dt | st | remainders | lastKeyState | sndOn | fault | toggles | frameRate |
    params | inputs | events => simp [Part.same]

/-- The side effect of the bulk transfers as one write of I, so that a frame after it is a frame after `setI`. -/
theorem advanceIndex_eq_setI (x : Nibble) (s : State) : advanceIndex x s =
    s.setI (if s.cfgLdst = .old then s.i + BitVec.ofNat 16 (x.toNat + 1) else s.i) := by
  unfold advanceIndex
  cases h : s.cfgLdst with
  | old => simp
  | new => simp [State.setI]

theorem Part.same_advanceIndex {p : Part} (hp : p ≠ .index) {x : Nibble} {s t : State} (h : p.same s t) :
    p.same s (advanceIndex x t) := by
  rw [advanceIndex_eq_setI]
  cases p with
  | index => exact absurd rfl hp
  | reg | pc | mem | disp | stack | dt | st | remainders | lastKeyState | sndOn | fault | toggles | frameRate |
    params | inputs | events => exact h

@[simp] theorem memByte_advanceIndex (x : Nibble) (s : State) (a : Nat) :
    memByte (advanceIndex x s) a = memByte s a := by
  rw [advanceIndex_eq_setI, State.setI_memByte]

@[simp] theorem reg_advanceIndex (x : Nibble) (s : State) (r : Nibble) : (advanceIndex x s).reg r = s.reg r := by
  rw [advanceIndex_eq_setI, State.setI_reg]

theorem advanceIndex_i_toNat (x : Nibble) (s : State) : (advanceIndex x s).i.toNat =
    if s.cfgLdst = .old then (s.i.toNat + x.toNat + 1) % 65536 else s.i.toNat := by
  rw [advanceIndex_eq_setI, State.setI_i]
  split
  · simp [Nat.add_assoc]
  · rfl

/-! ### Setting I (42_index_memory.md R120, R122) -/

theorem exec_ldI (nnn : Addr) (s : State) : exec (.ldI nnn) s = .next (s.setI (addr16 nnn)) := rfl

theorem exec_ldF (x : Nibble) (s : State) : exec (.ldF x) s = .next (s.setI (glyphAddr (s.reg x))) := rfl

/-- The highest glyph address is 0x09B, so nothing is lost in 16 bits. -/
theorem glyphAddr_toNat (b : Byte) : (glyphAddr b).toNat = 0x050 + b.toNat % 16 * 5 := by
  have low : (b &&& 0x0F).toNat = b.toNat % 16 := Nat.and_two_pow_sub_one_eq_mod b.toNat 4
  rw [glyphAddr, low, BitVec.toNat_ofNat, Config.fontBase, Config.glyphBytes]
  omega

/-- Settles O41. -/
theorem indexIsSetByAddressOrGlyph : Obligations.IndexIsSetByAddressOrGlyph := by
  unfold Obligations.IndexIsSetByAddressOrGlyph
  intro nnn x s
  exact ⟨⟨_, exec_ldI nnn s, addr16_toNat nnn, s.unchangedBut_setI _⟩,
    ⟨_, exec_ldF x s, glyphAddr_toNat (s.reg x), s.unchangedBut_setI _⟩⟩

/-! ### Decimal digits (42_index_memory.md R124) -/

theorem exec_ldB (x : Nibble) (s : State) : exec (.ldB x) s =
    withAccess (storeBytes s.mem s.i.toNat (decimalDigits (s.reg x))) fun m => .next (s.setMem m) := rfl

theorem decimalDigits_map_toNat (b : Byte) :
    (decimalDigits b).map BitVec.toNat = [b.toNat / 100, b.toNat / 10 % 10, b.toNat % 10] := by
  have := b.isLt
  simp only [decimalDigits, List.map_cons, List.map_nil, BitVec.toNat_ofNat, List.cons.injEq, and_true]
  omega

theorem exec_ldB_ok (x : Nibble) {s : State} (h : s.i.toNat ≤ 0xFFD) :
    ∃ m, exec (.ldB x) s = .next (s.setMem m) ∧ ∀ a, memByte (s.setMem m) a =
      if s.i.toNat ≤ a ∧ a < s.i.toNat + 3 then (decimalDigits (s.reg x)).getD (a - s.i.toNat) 0
      else memByte s a := by
  have fits : s.i.toNat + (decimalDigits (s.reg x)).length ≤ 0x1000 := by
    simp only [decimalDigits, List.length]
    omega
  obtain ⟨m, stored, reads⟩ := storeBytes_ok _ s.mem _ fits
  exact ⟨m, by rw [exec_ldB, stored, withAccess_ok], reads⟩

theorem exec_ldB_fault (x : Nibble) {s : State} (h : 0xFFD < s.i.toNat) :
    exec (.ldB x) s = .fault (.addrFault (max s.i.toNat 0x1000)) := by
  rw [exec_ldB, storeBytes_fault, withAccess_error]
  · simp only [decimalDigits, List.length]
    omega
  · simp [decimalDigits]

/-- Settles O43. -/
theorem decimalDigitsAreStored : Obligations.DecimalDigitsAreStored := by
  unfold Obligations.DecimalDigitsAreStored
  refine fun x s => ⟨fun h => ?_, fun h => ⟨_, exec_ldB_fault x (by omega)⟩⟩
  obtain ⟨m, run, reads⟩ := exec_ldB_ok x h
  have digit (k : Nat) (hk : k < 3) : (memByte (s.setMem m) (s.i.toNat + k)).toNat =
      [(s.reg x).toNat / 100, (s.reg x).toNat / 10 % 10, (s.reg x).toNat % 10].getD k 0 := by
    rw [reads, if_pos (by omega), Nat.add_sub_cancel_left, ← decimalDigits_map_toNat]
    exact (List.getD_map _ 0 BitVec.toNat).symm
  exact ⟨_, run, digit 0 (by decide), digit 1 (by decide), digit 2 (by decide),
    fun a ha => (reads a).trans (if_neg ha), s.unchangedBut_setMem m⟩

/-! ### The bulk store (42_index_memory.md R125) -/

theorem exec_stRegs (x : Nibble) (s : State) : exec (.stRegs x) s =
    withAccess (storeBytes s.mem s.i.toNat (s.regsUpTo x)) fun m => .next (advanceIndex x (s.setMem m)) := rfl

theorem exec_stRegs_ok {x : Nibble} {s : State} (h : s.i.toNat + x.toNat ≤ 0xFFF) :
    ∃ m, exec (.stRegs x) s = .next (advanceIndex x (s.setMem m)) ∧
      (∀ k : Nibble, k.toNat ≤ x.toNat → memByte (s.setMem m) (s.i.toNat + k.toNat) = s.reg k) ∧
      ∀ a, ¬(s.i.toNat ≤ a ∧ a ≤ s.i.toNat + x.toNat) → memByte (s.setMem m) a = memByte s a := by
  have len := regsUpTo_length s x
  obtain ⟨m, stored, reads⟩ := storeBytes_ok (s.regsUpTo x) s.mem s.i.toNat (by omega)
  refine ⟨m, by rw [exec_stRegs, stored, withAccess_ok], fun k hk => ?_, fun a ha => ?_⟩
  · rw [State.setMem_memByte, reads, if_pos (by omega), Nat.add_sub_cancel_left, regsUpTo_getD s x k hk]
  · exact (reads a).trans (if_neg (by omega))

theorem exec_stRegs_fault {x : Nibble} {s : State} (h : 0xFFF < s.i.toNat + x.toNat) :
    exec (.stRegs x) s = .fault (.addrFault (max s.i.toNat 0x1000)) := by
  have len := regsUpTo_length s x
  rw [exec_stRegs, storeBytes_fault _ _ _ (by omega) (List.ne_nil_of_length_eq_add_one len), withAccess_error]

/-- Settles O44. -/
theorem bulkStoreWritesTheRegisters : Obligations.BulkStoreWritesTheRegisters := by
  unfold Obligations.BulkStoreWritesTheRegisters
  refine fun x s => ⟨fun h => ?_, fun h => ⟨_, exec_stRegs_fault h⟩⟩
  obtain ⟨m, run, stored, kept⟩ := exec_stRegs_ok h
  refine ⟨_, run, by simpa using stored, by simpa using kept, advanceIndex_i_toNat x (s.setMem m), fun p hp => ?_⟩
  obtain ⟨hmem, hindex⟩ : p ≠ .mem ∧ p ≠ .index := by simpa using hp
  exact Part.same_advanceIndex hindex (s.unchangedBut_setMem m p (by simpa using hmem))

/-! ### The bulk load and its round trip (42_index_memory.md R126) -/

theorem exec_ldRegs (x : Nibble) (s : State) : exec (.ldRegs x) s =
    withAccess (loadBytes s.mem s.i.toNat (x.toNat + 1)) fun bs => .next (advanceIndex x (s.setRegs bs)) := rfl

theorem exec_ldRegs_ok {x : Nibble} {s : State} (h : s.i.toNat + x.toNat ≤ 0xFFF) :
    ∃ bs, exec (.ldRegs x) s = .next (advanceIndex x (s.setRegs bs)) ∧
      ∀ k : Nibble, (s.setRegs bs).reg k =
        if k.toNat ≤ x.toNat then memByte s (s.i.toNat + k.toNat) else s.reg k := by
  refine ⟨_, by rw [exec_ldRegs, loadBytes_ok _ _ _ (by omega), withAccess_ok], fun k => ?_⟩
  rw [State.reg_setRegs, List.length_map, List.length_range]
  refine if_ctx_congr Nat.lt_succ_iff (fun hk => ?_) fun _ => rfl
  simp [List.getD_eq_getElem?_getD, Nat.lt_succ_iff.2 hk, memByte]

theorem exec_ldRegs_fault {x : Nibble} {s : State} (h : 0xFFF < s.i.toNat + x.toNat) :
    exec (.ldRegs x) s = .fault (.addrFault (max s.i.toNat 0x1000)) := by
  rw [exec_ldRegs, loadBytes_fault _ _ _ (by omega) (by omega), withAccess_error]

/-- The round trip: where the store left the registers' bytes, a load finds them. -/
theorem ldRegs_restores_stRegs {x : Nibble} {s : State} (h : s.i.toNat + x.toNat ≤ 0xFFF) :
    ∃ t, exec (.stRegs x) s = .next t ∧
      ∀ u : State, u.i = s.i → (∀ a, memByte u a = memByte t a) →
        ∃ w, exec (.ldRegs x) u = .next w ∧ ∀ k : Nibble, k.toNat ≤ x.toNat → w.reg k = s.reg k := by
  obtain ⟨m, runStore, stored, -⟩ := exec_stRegs_ok h
  refine ⟨_, runStore, fun u hi hmem => ?_⟩
  obtain ⟨bs, runLoad, loaded⟩ := exec_ldRegs_ok (x := x) (s := u) (by rwa [hi])
  refine ⟨_, runLoad, fun k hk => ?_⟩
  calc (advanceIndex x (u.setRegs bs)).reg k
      = memByte u (u.i.toNat + k.toNat) := by rw [reg_advanceIndex, loaded, if_pos hk]
    _ = memByte (s.setMem m) (s.i.toNat + k.toNat) := by rw [hmem, hi, memByte_advanceIndex]
    _ = s.reg k := stored k hk

/-- Settles O45. -/
theorem bulkLoadReadsTheRegisters : Obligations.BulkLoadReadsTheRegisters := by
  unfold Obligations.BulkLoadReadsTheRegisters
  refine fun x s => ⟨fun h => ?_, fun h => ⟨_, exec_ldRegs_fault h⟩, ldRegs_restores_stRegs⟩
  obtain ⟨bs, run, loaded⟩ := exec_ldRegs_ok h
  exact ⟨_, run, fun k => (reg_advanceIndex x _ k).trans (loaded k), advanceIndex_i_toNat x (s.setRegs bs),
    fun p hindex hreg => Part.same_advanceIndex hindex (s.same_setRegs bs hreg)⟩

end Sys2Proof.Machine

namespace Sys2Proof.Machine

/-! ### Clearing the display (43_display.md R140) -/

theorem State.unchangedBut_setDisp (s : State) (d : Cells) : s.unchangedBut (s.setDisp d) [.disp] := by
  intro p hp
  cases p with
  | disp => simp at hp
  | reg | pc | index | mem | stack | dt | st | remainders | lastKeyState | sndOn | fault | toggles | frameRate |
    params | inputs | events => simp [Part.same]

theorem exec_cls (g : Nibble) (s : State) : exec (.cls g) s = .next (s.setDisp []) := rfl

/-- A display that lists no cell reads 0 everywhere. -/
theorem pixel_setDisp_nil (s : State) (x y : Nat) : pixel (s.setDisp []) x y = 0 := rfl

/-- Settles O47: `execCls` does not look at the pixel mode, so one equation covers both regimes. -/
theorem clearScreenZeroesTheDisplay : Obligations.ClearScreenZeroesTheDisplay := by
  unfold Obligations.ClearScreenZeroesTheDisplay
  intro g s
  exact ⟨_, exec_cls g s, pixel_setDisp_nil s, s.unchangedBut_setDisp []⟩

end Sys2Proof.Machine

namespace Sys2Proof.Machine

/-! ### The framebuffer (60_exceptions.md R209) -/

theorem framebuffer_length (s : State) : (framebuffer s).length = Config.width * Config.height := by
  simp [framebuffer]

/-- A cell inside the display has its flat index inside the framebuffer. -/
theorem cellIndex_lt {x y : Nat} (hx : x < Config.width) (hy : y < Config.height) :
    cellIndex x y < Config.width * Config.height := by
  simp only [cellIndex, Config.width, Config.height] at *
  omega

/-- A framebuffer byte is the display cell of the same flat index. -/
theorem framebuffer_getElem? (s : State) {k : Nat} (hk : k < Config.width * Config.height) :
    (framebuffer s)[k]? = some (cellRead blankDisp s.disp k) := by
  rw [framebuffer, List.getElem?_map, List.getElem?_range hk, Option.map_some]

/-- Settles O50: byte `y * 64 + x` is the byte at `cellIndex x y`, which is below 2048 for a cell inside the display. -/
theorem framebufferIsRowMajor : Obligations.FramebufferIsRowMajor := by
  unfold Obligations.FramebufferIsRowMajor
  exact fun s => ⟨framebuffer_length s, fun x y hx hy => framebuffer_getElem? s (cellIndex_lt hx hy)⟩

end Sys2Proof.Machine

namespace Sys2Proof.Machine

/-! ### Configuration writes, and instructions on the toggles (70_reset_and_hazards.md R226) -/

theorem hostMove_cfgWrite (f : ConfigField) (v : Toggle) (s : State) :
    hostMove (.cfgWrite f v) s = .next (hostCfgWrite f v s) := rfl

theorem unchangedBut_hostCfgWrite (f : ConfigField) (v : Toggle) (s : State) :
    s.unchangedBut (hostCfgWrite f v s) [.toggles] := by
  intro p hp
  cases f with
  | shift | jump | ldst =>
    cases p with
    | toggles => simp at hp
    | reg | pc | index | mem | disp | stack | dt | st | remainders | lastKeyState | sndOn | fault | frameRate |
      params | inputs | events => simp [Part.same, hostCfgWrite, State.reg, memByte, pixel]

/-- The toggles choose between the two forms of a shift, but no form writes them. -/
theorem same_toggles_shift (flag shift : Byte → Byte) (x y : Nibble) (s : State) :
    Part.toggles.same s (shiftInPlace flag shift x (shiftCopy x y s)) := by
  obtain ⟨b, copied⟩ := shiftCopy_cases x y s
  simp [copied, shiftInPlace, Part.same]

theorem same_toggles_takeRelease (x : Nibble) (rel : Half) (s : State) :
    Part.toggles.same s (takeRelease x rel s) := by
  obtain e | ⟨b, e⟩ := takeRelease_cases x rel s
  · simp [e, Part.same]
  · simp [e, Part.same]

/-- No instruction changes a toggle: what each one does is made of writes to other pieces of state. -/
theorem exec_same_toggles {i : Instr} {s t : State} (h : exec i s = .next t) : Part.toggles.same s t := by
  cases i with
  | ret => obtain ⟨-, ⟨-, rfl⟩ | ⟨-, rfl⟩⟩ := execRet_next h <;> simp [Part.same]
  | call => obtain ⟨-, ⟨-, rfl⟩ | ⟨-, rfl⟩⟩ := execCall_next h <;> simp [Part.same]
  | drw => obtain ⟨_, _, r, -, -, rfl⟩ := execDrw_next h; simp [Part.same]
  | ldB => obtain ⟨m, -, rfl⟩ := execLdB_next h; simp [Part.same]
  | stRegs =>
    obtain ⟨m, -, rfl⟩ := execStRegs_next h
    exact Part.same_advanceIndex (by decide) (s.unchangedBut_setMem m _ (by decide))
  | ldRegs =>
    obtain ⟨bs, -, rfl⟩ := execLdRegs_next h
    exact Part.same_advanceIndex (by decide) (s.same_setRegs bs (by simp))
  | shr x y => cases h; exact same_toggles_shift _ _ x y s
  | shl x y => cases h; exact same_toggles_shift _ _ x y s
  | ldVxK x =>
    cases h
    split
    · simp [Part.same]
    · exact same_toggles_takeRelease x _ s.polled
  | addI => cases h; split <;> simp [Part.same]
  | cls | jp | seImm | sneImm | seReg | ldImm | addImm | ldReg | orReg | andReg | xorReg | addReg | subReg | subnReg |
    sneReg | ldI | jpOff | rnd | skp | sknp | ldVxDt | ldDtVx | ldStVx | ldF | nop => cases h; simp [Part.same]

/-- Settles O56: the host's write stores one toggle, and no instruction stores any. -/
theorem configurationWritesStoreOnly : Obligations.ConfigurationWritesStoreOnly := by
  unfold Obligations.ConfigurationWritesStoreOnly
  refine ⟨fun v s => ⟨?_, ?_, ?_⟩, fun _ _ _ => exec_same_toggles⟩
  · exact ⟨_, hostMove_cfgWrite .shift v s, rfl, rfl, rfl, unchangedBut_hostCfgWrite .shift v s⟩
  · exact ⟨_, hostMove_cfgWrite .jump v s, rfl, rfl, rfl, unchangedBut_hostCfgWrite .jump v s⟩
  · exact ⟨_, hostMove_cfgWrite .ldst v s, rfl, rfl, rfl, unchangedBut_hostCfgWrite .ldst v s⟩

end Sys2Proof.Machine

namespace Sys2Proof.Machine

/-! ### Debug writes (70_reset_and_hazards.md R228) -/

theorem hostMove_debugWrite (w : DebugWrite) (s : State) :
    hostMove (.debugWrite w) s = .next (hostDebugWrite w s) := rfl

/-- The piece of state a debug write names. A slot and the cursor are both of the stack. -/
def DebugWrite.part : DebugWrite → Part
  | .mem _ _ => .mem
  | .slot _ _ | .sp _ => .stack
  | .pc _ => .pc
  | .index _ => .index
  | .reg x _ => .reg x

theorem State.unchangedBut_stack (s : State) (stack : Vector Half 16) (sp : BitVec 5) :
    s.unchangedBut { s with stack := stack, sp := sp } [.stack] := by
  intro p hp
  cases p with
  | stack => simp at hp
  | reg | pc | index | mem | disp | dt | st | remainders | lastKeyState | sndOn | fault | toggles | frameRate |
    params | inputs | events => simp [Part.same, State.reg, memByte, pixel]

/-- A debug write changes at most the piece it names. -/
theorem unchangedBut_hostDebugWrite (w : DebugWrite) (s : State) :
    s.unchangedBut (hostDebugWrite w s) [w.part] := by
  cases w with
  | mem a b => exact s.unchangedBut_setMem _
  | slot k a => exact s.unchangedBut_stack _ s.sp
  | sp n => exact s.unchangedBut_stack s.stack n
  | pc a => exact s.unchangedBut_setPc a
  | index a => exact s.unchangedBut_setI a
  | reg x b => exact s.unchangedBut_setReg x b

theorem memByte_hostDebugWrite_mem (s : State) (a : Addr) (b : Byte) (c : Nat) :
    memByte (hostDebugWrite (.mem a b) s) c = if c = a.toNat then b else memByte s c :=
  cellRead_cellWrite blankMem s.mem a.toNat c b

theorem stack_hostDebugWrite_slot (s : State) (k : Nibble) (h : Half) (j : Nat) (hj : j < 16) :
    (hostDebugWrite (.slot k h) s).stack[j] = if j = k.toNat then h else s.stack[j] := by
  simp [hostDebugWrite, Vector.getElem_set, eq_comm]

/-- Settles O58: the frame is one lemma over all debug writes; what is left is that the named piece holds the value. -/
theorem debugWritesSetOnePiece : Obligations.DebugWritesSetOnePiece := by
  unfold Obligations.DebugWritesSetOnePiece
  refine fun s a b h k x n => ⟨?_, ?_, ?_, ?_, ?_, ?_⟩
  · exact ⟨_, hostMove_debugWrite _ s, memByte_hostDebugWrite_mem s a b, unchangedBut_hostDebugWrite (.mem a b) s⟩
  · exact ⟨_, hostMove_debugWrite _ s, rfl, stack_hostDebugWrite_slot s k h, unchangedBut_hostDebugWrite (.slot k h) s⟩
  · exact ⟨_, hostMove_debugWrite _ s, rfl, rfl, unchangedBut_hostDebugWrite (.sp n) s⟩
  · exact ⟨_, hostMove_debugWrite _ s, rfl, unchangedBut_hostDebugWrite (.pc h) s⟩
  · exact ⟨_, hostMove_debugWrite _ s, rfl, unchangedBut_hostDebugWrite (.index h) s⟩
  · exact ⟨_, hostMove_debugWrite _ s, s.reg_setReg_self x b, unchangedBut_hostDebugWrite (.reg x b) s⟩

end Sys2Proof.Machine

namespace Sys2Proof.Machine

/-! ### The invariant is kept by every step (10_state.md R31) -/

/-- The pieces of state the invariant speaks of. -/
def State.invPieces (s : State) : Cells × Cells × BitVec 5 × Rat × Rat × Half × Config.Params × Bool :=
  (s.mem, s.disp, s.sp, s.drem, s.srem, s.fr, s.par, s.fault)

theorem State.Inv.of_pieces {s t : State} (h : s.Inv) (e : t.invPieces = s.invPieces) : t.Inv := by
  simp only [State.invPieces, Prod.mk.injEq] at e
  obtain ⟨hmem, hdisp, hsp, hdrem, hsrem, hfr, hpar, hfault⟩ := e
  constructor
  case memCanonical => rw [hmem]; exact h.memCanonical
  case dispCanonical => rw [hdisp]; exact h.dispCanonical
  case cursor => rw [hfault, hsp]; exact h.cursor
  case delayRemainder => rw [hfault, hdrem]; exact h.delayRemainder
  case soundRemainder => rw [hfault, hsrem]; exact h.soundRemainder
  case frameRate => rw [hfault, hfr]; exact h.frameRate
  case binaryCells => rw [hfault, hpar]; simpa only [pixel, hdisp] using h.binaryCells

/-! One lemma per piece that an operation replaces. -/

theorem State.Inv.setMem {s : State} (h : s.Inv) {m : Cells} (hm : Memory.wf m) : (s.setMem m).Inv :=
  { h with memCanonical := hm }

theorem State.Inv.setDisp {s : State} (h : s.Inv) {d : Cells} (hd : Display.wf d)
    (hb : s.fault = false → s.par.pixelMode = .binary →
      ∀ x y, pixel (s.setDisp d) x y = 0 ∨ pixel (s.setDisp d) x y = 1) :
    (s.setDisp d).Inv :=
  { h with dispCanonical := hd, binaryCells := hb }

theorem State.Inv.withCursor {s : State} (h : s.Inv) {n : BitVec 5} (hn : n.toNat ≤ 16) : { s with sp := n }.Inv :=
  { h with cursor := fun _ => hn }

/-- A faulted core meets the invariant when its two arrays are in canonical form: nothing else is claimed of it. -/
theorem State.Inv.of_fault {s : State} (hf : s.fault = true) (hm : Memory.wf s.mem) (hd : Display.wf s.disp) :
    s.Inv := by
  refine ⟨hm, hd, ?_, ?_, ?_, ?_, ?_⟩ <;> intro h <;> simp [hf] at h

/-! ### Drawing keeps the invariant -/

/-- Past the right edge a column runs on into the next row: every pair of numbers names a cell of a column below 64. -/
theorem pixel_eq_pixel_mod (s : State) (x y : Nat) : pixel s x y = pixel s (x % 64) (y + x / 64) := by
  have e : cellIndex x y = cellIndex (x % 64) (y + x / 64) := by
    simp only [cellIndex, Config.width]
    omega
  rw [pixel, e, pixel]

theorem drawRows_ok_fits {p : Config.Params} {m : Cells} {x0 n addr y : Nat} {acc r : Cells × Bool}
    (h : drawRows p m x0 n addr y acc = .ok r) : n = 0 ∨ addr + n ≤ 0x1000 := by
  by_contra hc
  rw [drawRows_fault p m x0 n addr y acc (by omega) (by omega)] at h
  cases h

theorem toggled_binary {p : Config.Params} (h : p.pixelMode = .binary) (c : Byte) :
    toggled p c = 0 ∨ toggled p c = 1 := by
  simp only [toggled, onValue, offValue, h]
  split
  · exact .inl rfl
  · exact .inr rfl

/-- In the binary regime a draw leaves each cell as it was or toggled, so 0 or 1. -/
theorem drawRows_binary {p : Config.Params} (hp : p.pixelMode = .binary) {m : Cells} {x0 n addr y : Nat}
    {acc r : Cells × Bool} (h : drawRows p m x0 n addr y acc = .ok r) {cx cy : Nat} (hx : cx < 64)
    (hc : cellRead blankDisp acc.1 (cellIndex cx cy) = 0 ∨ cellRead blankDisp acc.1 (cellIndex cx cy) = 1) :
    cellRead blankDisp r.1 (cellIndex cx cy) = 0 ∨ cellRead blankDisp r.1 (cellIndex cx cy) = 1 := by
  obtain ⟨r', e, cells, -⟩ := drawRows_ok p m x0 n addr y acc (drawRows_ok_fits h)
  obtain rfl : r = r' := Except.ok.inj (h.symm.trans e)
  obtain ⟨covered, other⟩ := cells cx cy hx
  by_cases hs : spriteCovers m addr x0 y n cx cy
  · rw [covered hs]; exact toggled_binary hp _
  · rw [other hs]; exact hc

theorem execDrw_inv {x y n : Nibble} {s t : State} (h : s.Inv) (e : execDrw x y n s = .next t) : t.Inv := by
  obtain ⟨x0, y0, r, hy, hr, rfl⟩ := execDrw_next e
  refine State.Inv.of_pieces (s := s.setDisp r.1) (h.setDisp (drawRows_wf _ _ _ _ _ _ _ _ hy hr h.dispCanonical) ?_) rfl
  intro hf hb cx cy
  rw [pixel_eq_pixel_mod]
  exact drawRows_binary hb hr (Nat.mod_lt _ (by decide)) (h.binaryCells hf hb _ _)

/-! ### Instructions, and the parts of a cycle around them -/

theorem advanceIndex_invPieces (x : Nibble) (s : State) : (advanceIndex x s).invPieces = s.invPieces := by
  rw [advanceIndex_eq_setI]; rfl

theorem shift_invPieces (flag shift : Byte → Byte) (x y : Nibble) (s : State) :
    (shiftInPlace flag shift x (shiftCopy x y s)).invPieces = s.invPieces := by
  obtain ⟨b, copied⟩ := shiftCopy_cases x y s
  rw [copied]; rfl

theorem takeRelease_invPieces (x : Nibble) (rel : Half) (s : State) :
    (takeRelease x rel s).invPieces = s.invPieces := by
  obtain e | ⟨b, e⟩ := takeRelease_cases x rel s
  · rw [e]
  · rw [e]; rfl

theorem exec_inv {i : Instr} {s t : State} (h : s.Inv) (e : exec i s = .next t) : t.Inv := by
  cases i with
  | cls => cases e; exact h.setDisp (cellWf_nil _ _) fun _ _ x y => .inl (pixel_setDisp_nil s x y)
  | drw => exact execDrw_inv h e
  | ret =>
    obtain ⟨hs, ⟨-, rfl⟩ | ⟨h0, rfl⟩⟩ := execRet_next e
    · exact h.of_pieces rfl
    · have := sp_sub_one h0
      exact (h.withCursor (n := s.sp - 1) (by omega)).of_pieces rfl
  | call =>
    obtain ⟨-, ⟨-, rfl⟩ | ⟨hs, rfl⟩⟩ := execCall_next e
    · exact h.of_pieces rfl
    · have := sp_add_one hs
      exact (h.withCursor (n := s.sp + 1) (by omega)).of_pieces rfl
  | ldB => obtain ⟨m, hm, rfl⟩ := execLdB_next e; exact h.setMem (storeBytes_wf _ hm h.memCanonical)
  | stRegs x =>
    obtain ⟨m, hm, rfl⟩ := execStRegs_next e
    exact (h.setMem (storeBytes_wf _ hm h.memCanonical)).of_pieces (advanceIndex_invPieces x _)
  | ldRegs x => obtain ⟨bs, -, rfl⟩ := execLdRegs_next e; exact h.of_pieces (advanceIndex_invPieces x _)
  | shr x y => cases e; exact h.of_pieces (shift_invPieces _ _ x y s)
  | shl x y => cases e; exact h.of_pieces (shift_invPieces _ _ x y s)
  | ldVxK x =>
    cases e
    split
    · exact h.of_pieces rfl
    · exact h.of_pieces (takeRelease_invPieces x _ s.polled)
  | addI => cases e; split <;> exact h.of_pieces rfl
  | jp | seImm | sneImm | seReg | ldImm | addImm | ldReg | orReg | andReg | xorReg | addReg | subReg | subnReg |
    sneReg | ldI | jpOff | rnd | skp | sknp | ldVxDt | ldDtVx | ldStVx | ldF | nop => cases e; exact h.of_pieces rfl

theorem pixel_beforeFetch_binary {s : State} (h : s.par.pixelMode = .binary) (x y : Nat) :
    pixel (beforeFetch s) x y = pixel s x y := by
  rw [pixel, beforeFetch_disp_binary h, pixel]

theorem beforeFetch_inv {s : State} (hf : s.fault = false) (h : s.Inv) : (beforeFetch s).Inv := by
  constructor
  case memCanonical => rw [beforeFetch_mem]; exact h.memCanonical
  case dispCanonical => exact beforeFetch_disp_wf h.dispCanonical
  case cursor => rw [beforeFetch_fault, beforeFetch_sp]; exact h.cursor
  case delayRemainder =>
    obtain ⟨h0, h1⟩ := h.delayRemainder hf
    rw [beforeFetch_drem]; exact fun _ => decay_remainder h0 h1
  case soundRemainder =>
    obtain ⟨h0, h1⟩ := h.soundRemainder hf
    rw [beforeFetch_srem]; exact fun _ => decay_remainder h0 h1
  case frameRate => rw [beforeFetch_fault, beforeFetch_fr]; exact h.frameRate
  case binaryCells =>
    rw [beforeFetch_fault, beforeFetch_par]
    intro _ hb x y
    rw [pixel_beforeFetch_binary hb]
    exact h.binaryCells hf hb x y

theorem takeAddrFault_inv (a : Nat) (s : State) : (takeAddrFault a s).Inv :=
  .of_fault (takeAddrFault_fault a s) (takeAddrFault_mem_wf a s) (takeAddrFault_disp_wf a s)

/-- Settles O3: each part of a cycle keeps the invariant, and AddrFault leaves both arrays in canonical form. -/
theorem stepKeepsTheInvariant : Obligations.StepKeepsTheInvariant := by
  unfold Obligations.StepKeepsTheInvariant
  intro s t h e
  obtain ⟨-, rfl⟩ | ⟨hf, -, ⟨-, rfl⟩ | ⟨-, i, -, ⟨u, hu, rfl⟩ | ⟨a, -, rfl⟩⟩⟩ := step_cases e
  · exact h.of_pieces rfl
  · exact takeAddrFault_inv _ _
  · have hstart : ((beforeFetch s).setPc (s.pc + 2)).Inv := (beforeFetch_inv hf h).of_pieces rfl
    exact (exec_inv hstart hu).of_pieces rfl
  · exact takeAddrFault_inv _ _

/-! ### Reset and the host's moves keep it (70_reset_and_hazards.md R230) -/

theorem reset_inv : State.reset.Inv where
  memCanonical := cellWf_nil _ _
  dispCanonical := cellWf_nil _ _
  cursor _ := Nat.zero_le _
  delayRemainder _ := ⟨le_refl _, zero_le_one⟩
  soundRemainder _ := ⟨le_refl _, zero_le_one⟩
  frameRate _ := show (60 : Half) ≠ 0 by decide
  binaryCells _ _ _ _ := .inl rfl

/-- Whatever the parameters, reset differs from `State.reset` in them and in the bytes of the font. -/
theorem resetWith_inv (p : Config.Params) : (State.resetWith p).Inv :=
  have font : Memory.wf (fillBytes [] Config.fontBase p.font.toList) :=
    fillBytes_wf _ (by simp [Config.fontBase]) (cellWf_nil _ _)
  { reset_inv.setMem font with binaryCells := fun _ _ _ _ => .inl rfl }

/-- Settles O2. -/
theorem resetMeetsTheInvariant : Obligations.ResetMeetsTheInvariant := by
  unfold Obligations.ResetMeetsTheInvariant
  exact ⟨reset_inv, resetWith_inv⟩

theorem hostLoad_next {bytes : List Byte} {s t : State} (h : hostLoad bytes s = .next t) :
    bytes.length ≤ 3584 ∧ s.fault = false ∧ t = (s.setMem (fillBytes s.mem 0x200 bytes)).setPc 0x200 := by
  unfold hostLoad at h
  split at h
  · cases h
  · split at h
    · cases h
    · exact ⟨not_lt.1 ‹_›, by simpa using ‹¬ s.fault = true›, (Host.Outcome.next.inj h).symm⟩

theorem hostFrWrite_next {r : Half} {s t : State} (h : hostFrWrite r s = .next t) : r ≠ 0 ∧ t = { s with fr := r } := by
  unfold hostFrWrite at h
  split at h
  · cases h
  · exact ⟨‹_›, (Host.Outcome.next.inj h).symm⟩

theorem hostDebugWrite_inv {w : DebugWrite} {s : State} (hw : ∀ n, w = .sp n → n.toNat ≤ 16) (h : s.Inv) :
    (hostDebugWrite w s).Inv := by
  cases w with
  | mem a b => exact h.setMem (cellWf_cellWrite b h.memCanonical a.isLt)
  | sp n => exact h.withCursor (hw n rfl)
  | slot | pc | index | reg => exact h.of_pieces rfl

/-- Settles O4. -/
theorem hostMovesKeepTheInvariant : Obligations.HostMovesKeepTheInvariant := by
  unfold Obligations.HostMovesKeepTheInvariant
  intro m s t hsp h e
  cases m with
  | reset => cases e; exact (resetWith_inv s.par).of_pieces rfl
  | load bytes =>
    obtain ⟨hlen, -, rfl⟩ := hostLoad_next e
    exact (h.setMem (fillBytes_wf bytes (by omega) h.memCanonical)).of_pieces rfl
  | cfgWrite f => cases e; cases f <;> exact h.of_pieces rfl
  | frWrite r =>
    obtain ⟨hr, rfl⟩ := hostFrWrite_next e
    exact { h with frameRate := fun _ => hr }
  | debugWrite w => cases e; exact hostDebugWrite_inv (fun n hn => hsp n (by rw [hn])) h
  | drive => cases e; exact h.of_pieces rfl

end Sys2Proof.Machine

namespace Sys2Proof

/-! ### No-ops are the unassigned words (30_encoding.md R66, R67) -/

theorem decode0_eq_nop_iff (w : Half) : decode0 w = .nop w ↔ (nnOf w).toNat ∉ [0xE0, 0xEE] := by
  unfold decode0
  split <;> simp_all

theorem decode8_eq_nop_iff (w : Half) :
    decode8 w = .nop w ↔ (nOf w).toNat ∈ [0x8, 0x9, 0xA, 0xB, 0xC, 0xD, 0xF] := by
  have hn : (nOf w).toNat < 16 := (nOf w).isLt
  unfold decode8
  generalize (nOf w).toNat = n at hn
  interval_cases n <;> simp

theorem decodeE_eq_nop_iff (w : Half) : decodeE w = .nop w ↔ (nnOf w).toNat ∉ [0x9E, 0xA1] := by
  unfold decodeE
  split <;> simp_all

theorem decodeF_eq_nop_iff (w : Half) :
    decodeF w = .nop w ↔ (nnOf w).toNat ∉ [0x07, 0x0A, 0x15, 0x18, 0x1E, 0x29, 0x33, 0x55, 0x65] := by
  unfold decodeF
  split <;> simp_all

/-- The decoder and the table of unassigned words, written apart, agree. -/
theorem decode_eq_nop_iff_unassigned (w : Half) : decode w = .nop w ↔ unassigned w = true := by
  have hop : (opOf w).toNat < 16 := (opOf w).isLt
  unfold decode unassigned
  rw [← opOf_toNat, ← nOf_toNat, ← nnOf_toNat]
  generalize (opOf w).toNat = op at hop
  interval_cases op <;> simp [decode0_eq_nop_iff, decode8_eq_nop_iff, decodeE_eq_nop_iff, decodeF_eq_nop_iff]

/-! ### Decoding what was encoded (30_encoding.md R65) -/

/-- Settles O5: the dispatch keys and the operands of a laid-out word are the fields it was laid out from. -/
theorem decodeOfEncodeIsTheInstruction : Obligations.DecodeOfEncodeIsTheInstruction := by
  unfold Obligations.DecodeOfEncodeIsTheInstruction
  intro i hi
  cases i with
  | nop w => exact (decode_eq_nop_iff_unassigned w).2 hi
  | jp | call | ldI | jpOff => simp [encode, decode, opOf_wordNNN, nnnOf_wordNNN]
  | seImm | sneImm | ldImm | addImm | rnd => simp [encode, decode, opOf_wordXNN, xOf_wordXNN, nnOf_wordXNN]
  | cls | ret => simp [encode, decode, decode0, opOf_wordXNN, xOf_wordXNN, nnOf_wordXNN]
  | skp | sknp => simp [encode, decode, decodeE, opOf_wordXNN, xOf_wordXNN, nnOf_wordXNN]
  | ldVxDt | ldVxK | ldDtVx | ldStVx | addI | ldF | ldB | stRegs | ldRegs =>
    simp [encode, decode, decodeF, opOf_wordXNN, xOf_wordXNN, nnOf_wordXNN]
  | seReg | sneReg | drw => simp [encode, decode, opOf_wordXYN, xOf_wordXYN, yOf_wordXYN, nOf_wordXYN]
  | ldReg | orReg | andReg | xorReg | addReg | subReg | shr | subnReg | shl =>
    simp [encode, decode, decode8, opOf_wordXYN, xOf_wordXYN, yOf_wordXYN, nOf_wordXYN]

/-! ### Encoding what was decoded -/

/-! A word is one of the three layouts of its own fields, the sub-opcode included where it has one. -/

section Layouts
variable {w : Half} {op k : Nat}

theorem wordNNN_of_op (hop : (opOf w).toNat = op) : wordNNN (.ofNat 4 op) (nnnOf w) = w := by
  subst hop
  simpa using wordNNN_fields w

theorem wordXNN_of_op (hop : (opOf w).toNat = op) : wordXNN (.ofNat 4 op) (xOf w) (nnOf w) = w := by
  subst hop
  simpa using wordXNN_fields w

theorem wordXNN_of_opNN (hop : (opOf w).toNat = op) (hnn : (nnOf w).toNat = k) :
    wordXNN (.ofNat 4 op) (xOf w) (.ofNat 8 k) = w := by
  subst hnn
  simpa using wordXNN_of_op hop

theorem wordXYN_of_op (hop : (opOf w).toNat = op) : wordXYN (.ofNat 4 op) (xOf w) (yOf w) (nOf w) = w := by
  subst hop
  simpa using wordXYN_fields w

theorem wordXYN_of_opN (hop : (opOf w).toNat = op) (hn : (nOf w).toNat = k) :
    wordXYN (.ofNat 4 op) (xOf w) (yOf w) (.ofNat 4 k) = w := by
  subst hn
  simpa using wordXYN_of_op hop

end Layouts

theorem encode_decode0 {w : Half} (hop : (opOf w).toNat = 0x0) : encode (decode0 w) = w := by
  unfold decode0
  split
  case h_3 => rfl
  all_goals exact wordXNN_of_opNN hop (by assumption)

theorem encode_decode8 {w : Half} (hop : (opOf w).toNat = 0x8) : encode (decode8 w) = w := by
  unfold decode8
  split
  case h_10 => rfl
  all_goals exact wordXYN_of_opN hop (by assumption)

theorem encode_decodeE {w : Half} (hop : (opOf w).toNat = 0xE) : encode (decodeE w) = w := by
  unfold decodeE
  split
  case h_3 => rfl
  all_goals exact wordXNN_of_opNN hop (by assumption)

theorem encode_decodeF {w : Half} (hop : (opOf w).toNat = 0xF) : encode (decodeF w) = w := by
  unfold decodeF
  split
  case h_10 => rfl
  all_goals exact wordXNN_of_opNN hop (by assumption)

/-- No bit of a word is lost by decoding it. -/
theorem encode_decode (w : Half) : encode (decode w) = w := by
  have hlt : (opOf w).toNat < 16 := (opOf w).isLt
  unfold decode
  split
  case h_1 hop => exact encode_decode0 hop
  case h_2 hop | h_3 hop | h_11 hop | h_12 hop => exact wordNNN_of_op hop
  case h_4 hop | h_5 hop | h_7 hop | h_8 hop | h_13 hop => exact wordXNN_of_op hop
  case h_6 hop | h_10 hop | h_14 hop => exact wordXYN_of_op hop
  case h_9 hop => exact encode_decode8 hop
  case h_15 hop => exact encode_decodeE hop
  case h_16 =>
    simp only [imp_false] at *
    exact encode_decodeF (by omega)

/-- A decoded no-op carries an unassigned word: the word it was decoded from, since nothing is lost. -/
theorem wellFormed_decode (w : Half) : (decode w).wellFormed = true := by
  cases h : decode w with
  | nop v =>
    obtain rfl : v = w := by simpa [h, encode] using encode_decode w
    exact (decode_eq_nop_iff_unassigned v).1 h
  | _ => rfl

theorem encodeBytes_decode (hi lo : Byte) : encodeBytes (decode (hi ++ lo)) = [hi, lo] := by
  simp only [encodeBytes, encode_decode, List.cons.injEq, and_true]
  exact ⟨BitVec.extractLsb'_append_eq_left, BitVec.extractLsb'_append_eq_right⟩

/-- Settles O6. -/
theorem encodeOfDecodeIsTheBytes : Obligations.EncodeOfDecodeIsTheBytes := by
  unfold Obligations.EncodeOfDecodeIsTheBytes
  refine ⟨fun hi lo rest => ⟨_, rfl, rfl, wellFormed_decode _, encodeBytes_decode hi lo⟩, fun bytes h => ?_⟩
  match bytes, h with
  | [], _ => rfl
  | [_], _ => rfl

/-! ### A word that matches a row is decoded to its instruction (30_encoding.md R65) -/

/-- The mnemonic depends on the leading nibble, and in the four families that sub-dispatch on N or NN too. -/
theorem decode_mnemonic_congr {w v : Half} (hop : opOf w = opOf v) (hn : opOf v = 0x8 → nOf w = nOf v)
    (hnn : opOf v ∈ [0x0, 0xE, 0xF] → nnOf w = nnOf v) : (decode w).mnemonic = (decode v).mnemonic := by
  have op_eq {k : Nat} (h : (opOf v).toNat = k) : opOf v = .ofNat 4 k := by
    rw [← h, BitVec.ofNat_toNat, BitVec.setWidth_eq]
  have hlt : (opOf v).toNat < 16 := (opOf v).isLt
  unfold decode
  rw [hop]
  split
  case h_1 h => unfold decode0; rw [hnn (by rw [op_eq h]; decide)]; split <;> rfl
  case h_9 h => unfold decode8; rw [hn (op_eq h)]; split <;> rfl
  case h_15 h => unfold decodeE; rw [hnn (by rw [op_eq h]; decide)]; split <;> rfl
  case h_16 =>
    simp only [imp_false] at *
    have h : (opOf v).toNat = 0xF := by omega
    unfold decodeF; rw [hnn (by rw [op_eq h]; decide)]; split <;> rfl
  all_goals rfl

/-- The mask of a row covers the fields its family dispatches on. -/
theorem opcodeMap_masks : ∀ r ∈ opcodeMap, (r.2.1 = 0xF000 ∧ opOf r.1 ∉ [0x0, 0x8, 0xE, 0xF]) ∨
    (r.2.1 = 0xF00F ∧ opOf r.1 = 0x8) ∨ (r.2.1 = 0xF0FF ∧ opOf r.1 ∈ [0x0, 0xE, 0xF]) := by decide

theorem decode_match_mnemonic : ∀ r ∈ opcodeMap, (decode r.1).mnemonic = r.2.2 := by decide

theorem opcodeMap_mnemonics_nodup : (opcodeMap.map fun r => r.2.2).Nodup := by decide

theorem nop_mnemonic_notMem_opcodeMap (w : Half) : ∀ r ∈ opcodeMap, (Instr.nop w).mnemonic ≠ r.2.2 := by
  simp only [Instr.mnemonic]
  decide

theorem decode_mnemonic_of_match {w : Half} {r : Half × Half × String} (hr : r ∈ opcodeMap) (hw : w &&& r.2.1 = r.1) :
    (decode w).mnemonic = r.2.2 := by
  rw [← decode_match_mnemonic r hr]
  obtain ⟨mask, hop⟩ | ⟨mask, hop⟩ | ⟨mask, hop⟩ := opcodeMap_masks r hr
  · rw [mask, and_maskOp] at hw
    refine decode_mnemonic_congr (by rw [← hw, opOf_wordXYN]) (fun h => ?_) fun h => ?_
    · simp [h] at hop
    · exact absurd ((by simp : [0x0, 0xE, 0xF] ⊆ ([0x0, 0x8, 0xE, 0xF] : List Nibble)) h) hop
  · rw [mask, and_maskOpN] at hw
    refine decode_mnemonic_congr (by rw [← hw, opOf_wordXYN]) (fun _ => by rw [← hw, nOf_wordXYN]) fun h => ?_
    simp [hop] at h
  · rw [mask, and_maskOpNN] at hw
    refine decode_mnemonic_congr (by rw [← hw, opOf_wordXNN]) (fun h => ?_) fun _ => by rw [← hw, nnOf_wordXNN]
    simp [h] at hop

/-- A row's mnemonic is its own, so the row that `decode_cases` found is the row with that mnemonic. -/
theorem match_of_decode_mnemonic {w : Half} {r : Half × Half × String} (hr : r ∈ opcodeMap)
    (h : (decode w).mnemonic = r.2.2) : w &&& r.2.1 = r.1 := by
  obtain hnop | ⟨q, hq, hw, hm⟩ := decode_cases w
  · exact absurd (hnop ▸ h) (nop_mnemonic_notMem_opcodeMap w r hr)
  · obtain rfl : q = r := List.inj_on_of_nodup_map opcodeMap_mnemonics_nodup hq hr (hm.symm.trans h)
    exact hw

/-- Settles O7: two rows that one word matches would have the same mnemonic. -/
theorem decodeFollowsTheOpcodeMap : Obligations.DecodeFollowsTheOpcodeMap := by
  unfold Obligations.DecodeFollowsTheOpcodeMap
  refine fun w => ⟨fun r hr => ⟨decode_mnemonic_of_match hr, match_of_decode_mnemonic hr⟩, ?_,
    decode_eq_nop_of_no_row, fun hnop r hr hw => ?_⟩
  · refine (List.pairwise_map.1 opcodeMap_mnemonics_nodup).imp_of_mem fun {r q} hr hq hne ⟨hwr, hwq⟩ => hne ?_
    exact (decode_mnemonic_of_match hr hwr).symm.trans (decode_mnemonic_of_match hq hwq)
  · exact nop_mnemonic_notMem_opcodeMap w r hr (hnop ▸ decode_mnemonic_of_match hr hw)

/-- Settles O8. -/
theorem writtenWordsDecode : Obligations.WrittenWordsDecode := by
  unfold Obligations.WrittenWordsDecode
  decide

end Sys2Proof

namespace Sys2Proof.Machine

/-! ### Frames compose, and every operation has one -/

theorem Part.same_trans {p : Part} {s t u : State} (h : p.same s t) (h' : p.same t u) : p.same s u := by
  cases p with
  | mem => exact fun a => (h' a).trans (h a)
  | disp => exact fun x y => (h' x y).trans (h x y)
  | stack | remainders => exact ⟨h'.1.trans h.1, h'.2.trans h.2⟩
  | toggles | inputs => exact ⟨h'.1.trans h.1, h'.2.1.trans h.2.1, h'.2.2.trans h.2.2⟩
  | reg | pc | index | dt | st | lastKeyState | sndOn | fault | frameRate | params | events => exact h'.trans h

theorem State.unchangedBut.trans {s t u : State} {ps qs : List Part} (h : s.unchangedBut t ps)
    (h' : t.unchangedBut u qs) : s.unchangedBut u (ps ++ qs) := by
  intro p hp
  rw [List.mem_append, not_or] at hp
  exact Part.same_trans (h p hp.1) (h' p hp.2)

theorem State.unchangedBut.mono {s t : State} {ps qs : List Part} (h : s.unchangedBut t ps) (hs : ps ⊆ qs) :
    s.unchangedBut t qs := fun p hp => h p fun hm => hp (hs hm)

/-- The registers, all sixteen. -/
def allRegs : List Part := (List.range 16).map fun k => .reg (BitVec.ofNat 4 k)

theorem reg_mem_allRegs (x : Nibble) : .reg x ∈ allRegs :=
  List.mem_map.2 ⟨x.toNat, List.mem_range.2 x.isLt, by simp⟩

theorem State.unchangedBut_setRegs (s : State) (bs : List Byte) : s.unchangedBut (s.setRegs bs) allRegs :=
  fun _ hp => s.same_setRegs bs fun k hk => hp (hk ▸ reg_mem_allRegs k)

theorem State.unchangedBut_setDt (s : State) (b : Byte) : s.unchangedBut (s.setDt b) [.dt] := by
  intro p hp
  cases p with
  | dt => simp at hp
  | reg | pc | index | mem | disp | stack | st | remainders | lastKeyState | sndOn | fault | toggles | frameRate |
    params | inputs | events => simp [Part.same]

theorem State.unchangedBut_setSt (s : State) (b : Byte) : s.unchangedBut (s.setSt b) [.st] := by
  intro p hp
  cases p with
  | st => simp at hp
  | reg | pc | index | mem | disp | stack | dt | remainders | lastKeyState | sndOn | fault | toggles | frameRate |
    params | inputs | events => simp [Part.same]

theorem State.unchangedBut_emit (s : State) (e : Event) : s.unchangedBut (s.emit e) [.events] := by
  intro p hp
  cases p with
  | events => simp at hp
  | reg | pc | index | mem | disp | stack | dt | st | remainders | lastKeyState | sndOn | fault | toggles | frameRate |
    params | inputs => simp [Part.same]

theorem State.unchangedBut_polled (s : State) : s.unchangedBut s.polled [.inputs, .events] := by
  intro p hp
  cases p with
  | inputs | events => simp at hp
  | reg | pc | index | mem | disp | stack | dt | st | remainders | lastKeyState | sndOn | fault | toggles | frameRate |
    params => simp [Part.same]

theorem State.unchangedBut_randed (s : State) : s.unchangedBut s.randed [.inputs, .events] := by
  intro p hp
  cases p with
  | inputs | events => simp at hp
  | reg | pc | index | mem | disp | stack | dt | st | remainders | lastKeyState | sndOn | fault | toggles | frameRate |
    params => simp [Part.same]

theorem State.unchangedBut_stack_pc (s : State) (stack : Vector Half 16) (sp : BitVec 5) (a : Half) :
    s.unchangedBut { s with stack := stack, sp := sp, pc := a } [.stack, .pc] :=
  (s.unchangedBut_stack stack sp).trans (State.unchangedBut_setPc _ a)

theorem unchangedBut_beforeFetch (s : State) :
    s.unchangedBut (beforeFetch s) [.disp, .dt, .st, .remainders, .sndOn, .events] := by
  intro p hp
  cases p with
  | disp | dt | st | remainders | sndOn | events => simp at hp
  | reg | pc | index | mem | stack | lastKeyState | fault | toggles | frameRate | params | inputs => simp [Part.same]

theorem unchangedBut_clearOut (s : State) : s.unchangedBut (clearOut s) [.events] := by
  intro p hp
  cases p with
  | events => simp at hp
  | reg | pc | index | mem | disp | stack | dt | st | remainders | lastKeyState | sndOn | fault | toggles | frameRate |
    params | inputs => simp [Part.same, clearOut, State.reg, memByte, pixel]

/-! ### What each instruction may change (46_cycle_driver.md R174) -/

/-- The parts of the state an instruction may change. -/
def mayWrite : Instr → List Part
  | .cls _ => [.disp]
  | .ret _ | .call _ => [.pc, .stack, .events]
  | .jp _ | .jpOff _ | .seImm _ _ | .sneImm _ _ | .seReg _ _ _ | .sneReg _ _ _ => [.pc]
  | .ldImm x _ | .addImm x _ | .ldReg x _ | .orReg x _ | .andReg x _ | .xorReg x _ | .ldVxDt x => [.reg x]
  | .addReg x _ | .subReg x _ | .subnReg x _ | .shr x _ | .shl x _ => [.reg x, .reg 0xF]
  | .ldI _ | .ldF _ => [.index]
  | .addI _ => [.index, .reg 0xF]
  | .rnd x _ => [.reg x, .inputs, .events]
  | .drw _ _ _ => [.disp, .reg 0xF]
  | .skp _ | .sknp _ => [.pc, .inputs, .events]
  | .ldVxK x => [.pc, .reg x, .inputs, .events]
  | .ldDtVx _ => [.dt]
  | .ldStVx _ => [.st]
  | .ldB _ => [.mem]
  | .stRegs _ => [.mem, .index]
  | .ldRegs _ => .index :: allRegs
  | .nop _ => []

theorem unchangedBut_advanceIndex (x : Nibble) (s : State) : s.unchangedBut (advanceIndex x s) [.index] := by
  rw [advanceIndex_eq_setI]; exact s.unchangedBut_setI _

/-- The flag first, the result second. -/
theorem unchangedBut_flag_result (s : State) (x : Nibble) (f b : Byte) :
    s.unchangedBut ((s.setVf f).setReg x b) [.reg x, .reg 0xF] :=
  ((s.unchangedBut_setReg vf f).trans (State.unchangedBut_setReg _ x b)).mono (by simp [vf])

theorem unchangedBut_shift (flag shift : Byte → Byte) (x y : Nibble) (s : State) :
    s.unchangedBut (shiftInPlace flag shift x (shiftCopy x y s)) [.reg x, .reg 0xF] := by
  obtain ⟨b, copied⟩ := shiftCopy_cases x y s
  rw [copied]
  exact ((s.unchangedBut_setReg x b).trans (unchangedBut_flag_result _ x _ _)).mono (by simp)

theorem unchangedBut_takeRelease (x : Nibble) (rel : Half) (s : State) :
    s.unchangedBut (takeRelease x rel s) [.reg x] := by
  obtain e | ⟨b, e⟩ := takeRelease_cases x rel s
  · rw [e]; exact s.unchangedBut_refl _
  · rw [e]; exact s.unchangedBut_setReg x b

/-- An instruction that completes changes nothing but the parts of `mayWrite`. -/
theorem exec_unchangedBut {i : Instr} {s t : State} (h : exec i s = .next t) : s.unchangedBut t (mayWrite i) := by
  cases i with
  | cls => cases h; exact s.unchangedBut_setDisp []
  | ret =>
    obtain ⟨-, ⟨-, rfl⟩ | ⟨-, rfl⟩⟩ := execRet_next h
    · exact (s.unchangedBut_emit _).mono (by simp [mayWrite])
    · exact (s.unchangedBut_stack_pc s.stack _ _).mono (by simp [mayWrite])
  | call =>
    obtain ⟨-, ⟨-, rfl⟩ | ⟨-, rfl⟩⟩ := execCall_next h
    · exact ((s.unchangedBut_emit _).trans (State.unchangedBut_setPc _ _)).mono (by simp [mayWrite])
    · exact (s.unchangedBut_stack_pc _ _ _).mono (by simp [mayWrite])
  | jp | jpOff | seImm | sneImm | seReg | sneReg => cases h; exact s.unchangedBut_setPc _
  | ldImm x | addImm x | ldReg x | orReg x | andReg x | xorReg x | ldVxDt x => cases h; exact s.unchangedBut_setReg x _
  | addReg x | subReg x | subnReg x => cases h; exact unchangedBut_flag_result s x _ _
  | shr x y | shl x y => cases h; exact unchangedBut_shift _ _ x y s
  | ldI | ldF => cases h; exact s.unchangedBut_setI _
  | addI x =>
    cases h
    split
    · exact (s.unchangedBut_setI _).trans (State.unchangedBut_setReg _ vf 1)
    · exact (s.unchangedBut_setI _).mono (by simp [mayWrite])
  | rnd x => cases h; exact (s.unchangedBut_randed.trans (State.unchangedBut_setReg _ x _)).mono (by simp [mayWrite])
  | drw =>
    obtain ⟨_, _, r, -, -, rfl⟩ := execDrw_next h
    exact (((s.unchangedBut_setReg vf 0).trans (State.unchangedBut_setDisp _ r.1)).trans
      (State.unchangedBut_setReg _ vf _)).mono (by simp [mayWrite, vf])
  | skp | sknp => cases h; exact (s.unchangedBut_polled.trans (State.unchangedBut_setPc _ _)).mono (by simp [mayWrite])
  | ldVxK x =>
    cases h
    split
    · exact (s.unchangedBut_polled.trans (State.unchangedBut_setPc _ _)).mono (by simp [mayWrite])
    · exact (s.unchangedBut_polled.trans (unchangedBut_takeRelease x _ _)).mono (by simp [mayWrite])
  | ldDtVx => cases h; exact s.unchangedBut_setDt _
  | ldStVx => cases h; exact s.unchangedBut_setSt _
  | ldB => obtain ⟨m, -, rfl⟩ := execLdB_next h; exact s.unchangedBut_setMem m
  | stRegs x =>
    obtain ⟨m, -, rfl⟩ := execStRegs_next h
    exact (s.unchangedBut_setMem m).trans (unchangedBut_advanceIndex x _)
  | ldRegs x =>
    obtain ⟨bs, -, rfl⟩ := execLdRegs_next h
    exact ((s.unchangedBut_setRegs bs).trans (unchangedBut_advanceIndex x _)).mono (by simp [mayWrite])
  | nop => cases h; exact s.unchangedBut_refl _

/-- The parts of the state no instruction reaches (60_exceptions.md R198). -/
def hostParts : List Part := [.toggles, .frameRate, .sndOn, .remainders, .fault, .params, .lastKeyState]

theorem hostParts_disjoint_mayWrite (i : Instr) : hostParts.Disjoint (mayWrite i) := by
  cases i <;> simp [hostParts, mayWrite, allRegs]

theorem exec_same_of_host_part {i : Instr} {s t : State} (h : exec i s = .next t) {p : Part} (hp : p ∈ hostParts) :
    p.same s t :=
  exec_unchangedBut h p (hostParts_disjoint_mayWrite i hp)

/-- Settles O24. -/
theorem instructionsCannotReachHostState : Obligations.InstructionsCannotReachHostState := by
  unfold Obligations.InstructionsCannotReachHostState
  intro i s t h
  obtain ⟨hshift, hjump, hldst⟩ := exec_same_of_host_part h (p := .toggles) (by decide)
  obtain ⟨hdrem, hsrem⟩ := exec_same_of_host_part h (p := .remainders) (by decide)
  exact ⟨hshift, hjump, hldst, exec_same_of_host_part h (p := .frameRate) (by decide),
    exec_same_of_host_part h (p := .sndOn) (by decide), hdrem, hsrem,
    exec_same_of_host_part h (p := .fault) (by decide), exec_same_of_host_part h (p := .params) (by decide),
    exec_same_of_host_part h (p := .lastKeyState) (by decide)⟩

/-! ### The two input ports and the events (10_state.md R178, 44_input_random_timer.md R150, R152) -/

/-- The instructions that poll the keys. -/
def pollers : List String := ["SKP", "SKNP", "LD_Vx_K"]

/-- An instruction that neither polls nor draws a random number leaves the input ports alone. -/
theorem inputs_notMem_mayWrite {i : Instr} (hp : i.mnemonic ∉ pollers) (hr : i.mnemonic ≠ "RND") :
    .inputs ∉ mayWrite i := by
  cases i <;> simp_all [mayWrite, allRegs, pollers, Instr.mnemonic]

theorem exec_of_poller {i : Instr} {s t : State} (hp : i.mnemonic ∈ pollers) (h : exec i s = .next t) :
    t.keyTape = s.keyTape.tail ∧ t.randTape = s.randTape ∧ t.out = s.out ++ [.poll] := by
  cases i with
  | skp | sknp => cases h; simp
  | ldVxK x =>
    cases h
    split
    · simp
    · obtain e | ⟨b, e⟩ := takeRelease_cases x (released s.lastKeyState s.nextKeys) s.polled <;> simp [e]
  | _ => simp [pollers, Instr.mnemonic] at hp

theorem exec_rnd (x : Nibble) (nn : Byte) (s : State) :
    exec (.rnd x nn) s = .next (s.randed.setReg x (s.nextRand &&& nn)) := rfl

end Sys2Proof.Machine

namespace Sys2Proof.Machine

/-! ### Each unit has its instructions -/

/-- An instruction that takes no input adds no event but a diagnostic of the stack. -/
theorem exec_out_of_no_input {i : Instr} {s t : State} (hp : i.mnemonic ∉ pollers) (hr : i.mnemonic ≠ "RND")
    (h : exec i s = .next t) : ∃ d ∈ [[], [Event.stackOverflow], [.stackUnderflow]], t.out = s.out ++ d := by
  cases i with
  | ret =>
    obtain ⟨-, ⟨-, rfl⟩ | ⟨-, rfl⟩⟩ := execRet_next h
    · exact ⟨[.stackUnderflow], by simp, rfl⟩
    · exact ⟨[], by simp, (List.append_nil _).symm⟩
  | call =>
    obtain ⟨-, ⟨-, rfl⟩ | ⟨-, rfl⟩⟩ := execCall_next h
    · exact ⟨[.stackOverflow], by simp, rfl⟩
    · exact ⟨[], by simp, (List.append_nil _).symm⟩
  | skp | sknp | ldVxK => simp [pollers, Instr.mnemonic] at hp
  | rnd => exact absurd rfl hr
  | _ =>
    have hout : t.out = s.out := exec_unchangedBut h .events (by simp [mayWrite, allRegs])
    exact ⟨[], by simp, by simpa using hout⟩

theorem exec_inputs_of_no_input {i : Instr} {s t : State} (hp : i.mnemonic ∉ pollers) (hr : i.mnemonic ≠ "RND")
    (h : exec i s = .next t) : t.keyTape = s.keyTape ∧ t.randTape = s.randTape := by
  obtain ⟨hkeys, hrand, -⟩ := exec_unchangedBut h .inputs (inputs_notMem_mayWrite hp hr)
  exact ⟨hkeys, hrand⟩

theorem eq_rnd_of_mnemonic {i : Instr} (h : i.mnemonic = "RND") : ∃ x nn, i = .rnd x nn := by
  cases i with
  | rnd x nn => exact ⟨x, nn, rfl⟩
  | _ => simp [Instr.mnemonic] at h

theorem exec_keys_of_no_poll {i : Instr} {s t : State} (hp : i.mnemonic ∉ pollers) (h : exec i s = .next t) :
    t.keyTape = s.keyTape ∧ t.out.count .poll = s.out.count .poll := by
  by_cases hr : i.mnemonic = "RND"
  · obtain ⟨x, nn, rfl⟩ := eq_rnd_of_mnemonic hr
    cases h
    simp [List.count_append]
  · obtain ⟨d, hd, hout⟩ := exec_out_of_no_input hp hr h
    have hcount : d.count .poll = 0 := by clear hout; revert d; decide
    exact ⟨(exec_inputs_of_no_input hp hr h).1, by rw [hout, List.count_append, hcount, Nat.add_zero]⟩

theorem exec_rands_of_no_rnd {i : Instr} {s t : State} (hr : i.mnemonic ≠ "RND") (h : exec i s = .next t) :
    t.randTape = s.randTape ∧ t.out.count .rand = s.out.count .rand := by
  by_cases hp : i.mnemonic ∈ pollers
  · obtain ⟨-, hrand, hout⟩ := exec_of_poller hp h
    exact ⟨hrand, by simp [hout, List.count_append]⟩
  · obtain ⟨d, hd, hout⟩ := exec_out_of_no_input hp hr h
    have hcount : d.count .rand = 0 := by clear hout; revert d; decide
    exact ⟨(exec_inputs_of_no_input hp hr h).2, by rw [hout, List.count_append, hcount, Nat.add_zero]⟩

/-- The instructions that may write a unit, read off `mayWrite`. -/
theorem writers_of_units (i : Instr) :
    (.stack ∈ mayWrite i → i.mnemonic ∈ ["CALL", "RET"]) ∧ (.mem ∈ mayWrite i → i.mnemonic ∈ ["LD_B", "ST_regs"]) ∧
    (.disp ∈ mayWrite i → i.mnemonic ∈ ["CLS", "DRW"]) ∧ (.dt ∈ mayWrite i → i.mnemonic ∈ ["LD_DT_Vx"]) ∧
    (.st ∈ mayWrite i → i.mnemonic ∈ ["LD_ST_Vx"]) ∧
    (.index ∈ mayWrite i → i.mnemonic ∈ ["LD_I", "ADD_I", "LD_F", "ST_regs", "LD_regs"]) := by
  cases i <;> simp [mayWrite, allRegs, Instr.mnemonic]

/-- Settles O25. -/
theorem eachUnitHasItsInstructions : Obligations.EachUnitHasItsInstructions := by
  unfold Obligations.EachUnitHasItsInstructions
  intro i s t h
  obtain ⟨hstack, hmem, hdisp, hdt, hst, hindex⟩ := writers_of_units i
  have kept {p : Part} {ms : List String} (hw : p ∈ mayWrite i → i.mnemonic ∈ ms) (hi : i.mnemonic ∉ ms) :
      p.same s t := exec_unchangedBut h p (mt hw hi)
  exact ⟨kept hstack, kept hmem, kept hdisp, fun hp => exec_keys_of_no_poll hp h,
    fun hr => exec_rands_of_no_rnd (by simpa using hr) h, kept hdt, kept hst, kept hindex⟩

/-! ### What a step does around its instruction -/

/-- Settles O9. -/
theorem stepRunsTheDecodedInstruction : Obligations.StepRunsTheDecodedInstruction := by
  unfold Obligations.StepRunsTheDecodedInstruction
  rintro s i hf hr hp rfl
  refine ⟨fun t ht => ?_, fun a ha => ⟨_, ?_, takeAddrFault_fault a _, takeAddrFault_out a _⟩, fun r hr' => ?_⟩
  · rw [step_fetched hf hr hp, ht, endCycle_next]
  · rw [step_fetched hf hr hp, ha, endCycle_fault]; rfl
  · rw [step_fetched hf hr hp, hr', endCycle_refused]

/-- Settles O10. -/
theorem faultedCoreIsStuck : Obligations.FaultedCoreIsStuck := by
  unfold Obligations.FaultedCoreIsStuck
  exact fun s hf => ⟨_, step_faulted hf, unchangedBut_clearOut s, rfl⟩

/-- Settles O11. -/
theorem fetchBeyondMemoryFaults : Obligations.FetchBeyondMemoryFaults := by
  unfold Obligations.FetchBeyondMemoryFaults
  intro s hf hr hp
  have first : max s.pc.toNat 0x1000 = if s.pc.toNat = 0xFFF then 0x1000 else s.pc.toNat := by split <;> omega
  exact ⟨_, step_fetch_fault hf hr hp, takeAddrFault_fault _ _, by rw [takeAddrFault_out, first]⟩

/-- What one cycle emits after steps 1 to 4, by whether it completes or faults; `snd_on` is theirs when it completes. -/
theorem step_out {s t : State} (hf : s.fault = false) (h : step s = .next t) :
    (t.fault = false ∧ t.sndOn = (beforeFetch s).sndOn ∧
      ∃ d, d ∈ [[], [Event.poll], [.rand], [.stackOverflow], [.stackUnderflow]] ∧
        t.out = (beforeFetch s).out ++ d ++ [.poll]) ∨
    (t.fault = true ∧ ∃ addr, 0xFFF < addr ∧ t.out = (beforeFetch s).out ++ [.addrFault addr]) := by
  obtain ⟨hf', -⟩ | ⟨-, -, ⟨-, rfl⟩ | ⟨-, i, -, ⟨u, hu, rfl⟩ | ⟨a, ha, rfl⟩⟩⟩ := step_cases h
  · simp [hf] at hf'
  · exact .inr ⟨rfl, _, by omega, takeAddrFault_out _ _⟩
  · have hfault : u.fault = ((beforeFetch s).setPc (s.pc + 2)).fault :=
      exec_same_of_host_part hu (p := .fault) (by decide)
    have hsnd : u.sndOn = ((beforeFetch s).setPc (s.pc + 2)).sndOn :=
      exec_same_of_host_part hu (p := .sndOn) (by decide)
    obtain ⟨d, hd, hout⟩ := exec_out hu
    exact .inl ⟨by simpa [hf] using hfault, hsnd, d, hd, by rw [refreshKeys_out, hout, State.setPc_out]⟩
  · obtain ⟨k, hk, hlt⟩ := exec_fault ha
    obtain rfl : a = k := Fault.addrFault.inj hk
    exact .inr ⟨rfl, a, hlt, takeAddrFault_out _ _⟩

/-- Settles O12. -/
theorem eventsOfOneCycle : Obligations.EventsOfOneCycle := by
  unfold Obligations.EventsOfOneCycle
  intro s t hf h
  have toggle : (beforeFetch s).out = [] ∨ (beforeFetch s).out = [.audioToggle] := by
    rw [beforeFetch_out]
    exact ite_eq_or_eq _ _ _
  obtain ⟨hft, -, d, hd, hout⟩ | ⟨hft, addr, hlt, hout⟩ := step_out hf h
  · exact ⟨_, d, toggle, .inl ⟨hft, hd, hout⟩⟩
  · exact ⟨_, _, toggle, .inr ⟨hft, addr, hlt, rfl, hout⟩⟩

/-- Settles O13: the later events of the cycle are no toggles, so the count is that of step 3. -/
theorem audioTogglesExactlyOnEdges : Obligations.AudioTogglesExactlyOnEdges := by
  unfold Obligations.AudioTogglesExactlyOnEdges
  intro s t hf h
  have edge : (beforeFetch s).out.count .audioToggle =
      if decide (0 < (decay s.fr s.st s.srem).1.toNat) = s.sndOn then 0 else 1 := by
    rw [beforeFetch_out, apply_ite (List.count Event.audioToggle)]
    rfl
  rw [← edge, ← beforeFetch_sndOn s]
  obtain ⟨-, hsnd, d, hd, hout⟩ | ⟨hft, addr, -, hout⟩ := step_out hf h
  · have hcount : d.count .audioToggle = 0 := by clear hout; revert d; decide
    exact ⟨by simp [hout, List.count_append, hcount], fun _ => hsnd⟩
  · exact ⟨by simp [hout, List.count_append], fun hft' => by simp [hft] at hft'⟩

/-- Settles O19. -/
theorem keySnapshotIsRefreshed : Obligations.KeySnapshotIsRefreshed := by
  unfold Obligations.KeySnapshotIsRefreshed
  rintro s t _ hf hp rfl h hft
  have refreshed {u : State} {r : Half} {rest : List Half} (hu : u.keyTape = r :: rest) :
      (refreshKeys u).lastKeyState = r ∧ (refreshKeys u).keyTape = rest := by
    simp [State.nextKeys, hu]
  obtain ⟨hf', -⟩ | ⟨-, -, ⟨hp', -⟩ | ⟨-, i, rfl, ⟨u, hu, rfl⟩ | ⟨a, -, rfl⟩⟩⟩ := step_cases h
  · simp [hf] at hf'
  · omega
  · refine ⟨fun hi r rest htape => refreshed ?_, fun hi d r rest htape => refreshed ?_⟩
    · simpa [htape] using (exec_keys_of_no_poll hi hu).1
    · simpa [htape] using (exec_of_poller hi hu).1
  · simp at hft

/-- Settles O20. -/
theorem onlyResetClearsTheFault : Obligations.OnlyResetClearsTheFault := by
  unfold Obligations.OnlyResetClearsTheFault
  intro s hf
  refine ⟨fun t h => ?_, fun m t hm h => ?_, _, rfl, rfl⟩
  · rw [step_faulted hf] at h
    cases h
    exact hf
  · cases m with
    | reset => exact absurd rfl hm
    | load bytes =>
      obtain ⟨-, hf', -⟩ := hostLoad_next h
      simp [hf] at hf'
    | cfgWrite f v => cases h; exact (unchangedBut_hostCfgWrite f v s .fault (by simp)).trans hf
    | frWrite r => obtain ⟨-, rfl⟩ := hostFrWrite_next h; exact hf
    | debugWrite w =>
      cases h
      exact (unchangedBut_hostDebugWrite w s .fault (by cases w <;> simp [DebugWrite.part])).trans hf
    | drive => cases h; exact hf

end Sys2Proof.Machine

namespace Sys2Proof.Machine

/-! ### Timer decay (60_exceptions.md R200 to R204) -/

theorem ticksPerCycle_eq (fr : Half) : ticksPerCycle fr = 60 / (fr.toNat : Rat) := by
  rw [ticksPerCycle, Rat.mkRat_eq_div]
  rfl

/-- A tick subtracts the floor of the remainder, and the timer stops at 0. -/
theorem decay_ticks_toNat {fr : Half} {t : Byte} {r : Rat} (ht : t ≠ 0) (h : 1 < r + ticksPerCycle fr) :
    ((decay fr t r).1.toNat : Int) = max 0 ((t.toNat : Int) - (r + ticksPerCycle fr).floor) := by
  have hfloor : 1 ≤ (r + ticksPerCycle fr).floor := Rat.le_floor_iff.2 (by exact_mod_cast h.le)
  have hlt := t.isLt
  rw [decay_ticks ht h, BitVec.toNat_ofNat]
  omega

/-- The three clauses of R201, in the terms of the spec. -/
theorem decay_spec (fr : Half) (t : Byte) (r : Rat) :
    (t = 0 → (decay fr t r).1 = 0 ∧ (decay fr t r).2 = r) ∧
    (t ≠ 0 → r + 60 / (fr.toNat : Rat) ≤ 1 →
      (decay fr t r).1 = t ∧ (decay fr t r).2 = r + 60 / (fr.toNat : Rat)) ∧
    (t ≠ 0 → 1 < r + 60 / (fr.toNat : Rat) →
      ((decay fr t r).1.toNat : Int) = max 0 ((t.toNat : Int) - (r + 60 / (fr.toNat : Rat)).floor) ∧
      (decay fr t r).2 = r + 60 / (fr.toNat : Rat) - ((r + 60 / (fr.toNat : Rat)).floor : Rat)) := by
  rw [← ticksPerCycle_eq]
  refine ⟨?_, fun ht h => ?_, fun ht h => ⟨decay_ticks_toNat ht h, ?_⟩⟩
  · rintro rfl
    rw [decay_stopped]
    exact ⟨rfl, rfl⟩
  · simp [decay_waits ht h]
  · rw [decay_ticks ht h]

/-- Settles O14: both timers decay by the same rule. -/
theorem timersDecayByExactTicks : Obligations.TimersDecayByExactTicks := by
  unfold Obligations.TimersDecayByExactTicks
  intro s _
  simp only [beforeFetch_dt, beforeFetch_drem, beforeFetch_st, beforeFetch_srem]
  obtain ⟨dstop, dwait, dtick⟩ := decay_spec s.fr s.dt s.drem
  obtain ⟨sstop, swait, stick⟩ := decay_spec s.fr s.st s.srem
  exact ⟨dstop, dwait, dtick, sstop, swait, stick⟩

theorem decayTimes_succ (fr : Half) (k : Nat) (t : Byte) (r : Rat) :
    decayTimes fr (k + 1) t r = decay fr (decayTimes fr k t r).1 (decayTimes fr k t r).2 :=
  Function.iterate_succ_apply' _ _ _

/-- While a timer holds more than the ticks due, timer minus remainder falls by exactly the ticks of one cycle. -/
theorem decay_difference {fr : Half} {t : Byte} {r : Rat} (h : r + ticksPerCycle fr < (t.toNat : Rat)) (h0 : 0 ≤ r) :
    ((decay fr t r).1.toNat : Rat) - (decay fr t r).2 = (t.toNat : Rat) - r - ticksPerCycle fr := by
  have ht : t ≠ 0 := by
    rintro rfl
    have := ticksPerCycle_nonneg fr
    norm_num at h
    linarith
  by_cases hw : r + ticksPerCycle fr ≤ 1
  · rw [decay_waits ht hw]
    ring
  · have htick := decay_ticks_toNat ht (not_le.1 hw)
    have hfloor : (r + ticksPerCycle fr).floor < (t.toNat : Int) := by
      have := (Rat.floor_le (r + ticksPerCycle fr)).trans_lt h
      exact_mod_cast this
    have hcast : ((decay fr t r).1.toNat : Rat) = (t.toNat : Rat) - ((r + ticksPerCycle fr).floor : Rat) := by
      rw [max_eq_right (by omega)] at htick
      exact_mod_cast htick
    rw [hcast, decay_ticks ht (not_le.1 hw)]
    ring

/-- Settles O15, by induction on the cycles: timer minus remainder falls by 60/FR in each. -/
theorem totalDecrementOfATimer : Obligations.TotalDecrementOfATimer := by
  unfold Obligations.TotalDecrementOfATimer
  intro fr k t _
  have due (k : Nat) : 60 * (k : Rat) / (fr.toNat : Rat) = k * ticksPerCycle fr := by rw [ticksPerCycle_eq]; ring
  have hq := ticksPerCycle_nonneg fr
  rw [due]
  induction k with
  | zero => simp [decayTimes]
  | succ k ih =>
    intro hk
    push_cast at hk ⊢
    obtain ⟨htotal, h0, h1⟩ := ih (by linarith)
    have hstep := decay_difference (fr := fr) (t := (decayTimes fr k t 0).1) (by linarith) h0
    rw [decayTimes_succ]
    exact ⟨by linarith, decay_remainder h0 h1⟩

/-- A sum of exactly 2 takes two from the timer and leaves no remainder. -/
theorem decay_two {fr : Half} {t : Byte} {r : Rat} (ht : t ≠ 0) (h : r + ticksPerCycle fr = 2) :
    decay fr t r = (BitVec.ofNat 8 (t.toNat - 2), 0) := by
  have hfloor : Rat.floor 2 = 2 := rfl
  rw [decay_ticks ht (by rw [h]; norm_num), h, hfloor]
  exact Prod.ext rfl (by norm_num)

theorem ticksPerCycle_thirty : ticksPerCycle 30 = 2 := by
  rw [ticksPerCycle_eq]
  show (60 : Rat) / (30 : Nat) = 2
  norm_num

theorem ticksPerCycle_sixty : ticksPerCycle 60 = 1 := by
  rw [ticksPerCycle_eq]
  show (60 : Rat) / (60 : Nat) = 1
  norm_num

/-- At 60 frames per second a cycle waits with a sum of exactly 1, and the next one takes two. -/
theorem decay_sixty_twice {t : Byte} (ht : t ≠ 0) :
    decay 60 (decay 60 t 0).1 (decay 60 t 0).2 = (BitVec.ofNat 8 (t.toNat - 2), 0) := by
  rw [decay_waits ht (by rw [ticksPerCycle_sixty]; norm_num)]
  exact decay_two ht (by rw [ticksPerCycle_sixty]; norm_num)

/-- Settles O16: from a remainder of 0, one cycle at 30 and two cycles at 60 do the same. -/
theorem timerRateIsInvariant : Obligations.TimerRateIsInvariant := by
  unfold Obligations.TimerRateIsInvariant
  intro n t h
  have hlt := t.isLt
  have falls : decayTimes 30 n t 0 = (BitVec.ofNat 8 (t.toNat - 2 * n), 0) ∧
      decayTimes 60 (2 * n) t 0 = (BitVec.ofNat 8 (t.toNat - 2 * n), 0) := by
    induction n with
    | zero => simp [decayTimes]
    | succ n ih =>
      obtain ⟨ih30, ih60⟩ := ih (by omega)
      have hv : (BitVec.ofNat 8 (t.toNat - 2 * n)).toNat = t.toNat - 2 * n := Nat.mod_eq_of_lt (by omega)
      have hne : BitVec.ofNat 8 (t.toNat - 2 * n) ≠ 0 := fun e => by
        have := congrArg BitVec.toNat e
        rw [hv] at this
        simp at this
        omega
      have hnext : t.toNat - 2 * n - 2 = t.toNat - 2 * (n + 1) := by omega
      refine ⟨?_, ?_⟩
      · rw [decayTimes_succ, ih30, decay_two hne (by rw [ticksPerCycle_thirty]; norm_num), hv, hnext]
      · show decayTimes 60 (2 * n + 1 + 1) t 0 = _
        rw [decayTimes_succ, decayTimes_succ, ih60, decay_sixty_twice hne, hv, hnext]
  rw [falls.1, falls.2, BitVec.toNat_ofNat, Nat.mod_eq_of_lt (by omega)]
  exact ⟨rfl, rfl⟩

/-! ### The alpha decay step (43_display.md R143) -/

theorem pixel_beforeFetch_alpha {s : State} (h : s.par.pixelMode = .alpha) (hw : Display.wf s.disp) (x y : Nat) :
    (pixel (beforeFetch s) x y).toNat = if 0 < (pixel s x y).toNat ∧ (pixel s x y).toNat < 255 then
      (pixel s x y).toNat - s.par.fadeStep.val.toNat else (pixel s x y).toNat := by
  rw [pixel, beforeFetch_disp_alpha h, cellRead_cellMap _ (fadeCell_zero _) hw, fadeCell_toNat, pixel]

/-- Settles O17. -/
theorem alphaDecayFadesCells : Obligations.AlphaDecayFadesCells := by
  unfold Obligations.AlphaDecayFadesCells
  exact fun s hw => ⟨fun h => pixel_beforeFetch_alpha h hw, pixel_beforeFetch_binary, unchangedBut_beforeFetch s⟩

/-! ### A core parked on a jump to itself (70_reset_and_hazards.md R232) -/

theorem addr16_setWidth {a : Half} (h : a.toNat ≤ 0xFFE) : addr16 (a.setWidth 12) = a := by
  apply BitVec.eq_of_toNat_eq
  rw [addr16_toNat, BitVec.toNat_setWidth]
  omega

theorem step_of_parked {s : State} (hf : s.fault = false) (hr : s.fr ≠ 0) (hp : s.pc.toNat ≤ 0xFFE)
    (hw : decode (memByte s s.pc.toNat ++ memByte s (s.pc.toNat + 1)) = .jp (s.pc.setWidth 12)) :
    step s = .next (refreshKeys ((beforeFetch s).setPc s.pc)) := by
  rw [step_fetched hf hr hp, hw, exec_jp, endCycle_next, addr16_setWidth hp]
  rfl

/-- Settles O21. -/
theorem parkedCoreStaysParked : Obligations.ParkedCoreStaysParked := by
  unfold Obligations.ParkedCoreStaysParked
  intro s hf hr hp hw
  refine ⟨_, step_of_parked hf hr hp hw, rfl, fun p hpart => ?_, pixel_beforeFetch_binary,
    fun h hwf => pixel_beforeFetch_alpha h hwf⟩
  by_cases hpc : p = .pc
  · subst hpc; rfl
  · exact unchangedBut_refreshKeys_setPc s s.pc p (by simpa [hpc] using hpart)

/-! ### Memory of zeros (70_reset_and_hazards.md R221) -/

theorem step_of_zeroMemory {s : State} (hf : s.fault = false) (hr : s.fr ≠ 0) (hp : s.pc.toNat ≤ 0xFFE)
    (hz : ∀ a, s.pc.toNat ≤ a → a ≤ 0xFFF → memByte s a = 0) :
    step s = .next (refreshKeys ((beforeFetch s).setPc (s.pc + 2))) := by
  refine step_of_nop hf hr hp (w := 0) ?_
  rw [hz _ le_rfl (by omega), hz _ (by omega) (by omega)]
  rfl

theorem pc_add_two_toNat {a : Half} (h : a.toNat ≤ 0xFFE) : (a + 2).toNat = a.toNat + 2 := by
  rw [BitVec.toNat_add]
  exact Nat.mod_eq_of_lt (by simp; omega)

/-- Settles O23. -/
theorem zeroMemoryStepsAsNoOps : Obligations.ZeroMemoryStepsAsNoOps := by
  unfold Obligations.ZeroMemoryStepsAsNoOps
  intro s hf hr hz
  refine ⟨fun hp => ⟨_, step_of_zeroMemory hf hr hp hz, by simpa using hf, pc_add_two_toNat hp, by simp, by simp,
    unchangedBut_refreshKeys_setPc s _⟩, fun hp => ?_⟩
  have first : max s.pc.toNat 0x1000 = 0x1000 := by omega
  exact ⟨_, step_fetch_fault hf hr (by omega), rfl, by rw [takeAddrFault_out, first]⟩

/-- `decay_stopped` with the zero as `simp` writes it. -/
theorem decay_zero (fr : Half) (r : Rat) : decay fr 0#8 r = (0#8, r) := decay_stopped fr r

/-- A state of the run from reset with nothing loaded: silent, and zero from PC on. -/
structure Unloaded (s : State) : Prop where
  fault : s.fault = false
  frameRate : s.fr ≠ 0
  zeros : ∀ a, s.pc.toNat ≤ a → memByte s a = 0
  sound : s.st = 0
  level : s.sndOn = false

theorem unloaded_reset : Unloaded State.reset where
  fault := rfl
  frameRate := by decide
  zeros a h := if_neg fun ⟨_, hlt⟩ => absurd (h.trans_lt hlt) (by decide)
  sound := rfl
  level := rfl

theorem Unloaded.step {s : State} (h : Unloaded s) (hp : s.pc.toNat ≤ 0xFFE) :
    ∃ t, Machine.step s = .next t ∧ Unloaded t ∧ t.pc.toNat = s.pc.toNat + 2 := by
  have hpc := pc_add_two_toNat hp
  refine ⟨_, step_of_zeroMemory h.fault h.frameRate hp fun a ha _ => h.zeros a ha, ?_, hpc⟩
  constructor
  case fault => simpa using h.fault
  case frameRate => simpa using h.frameRate
  case zeros =>
    intro a ha
    rw [refreshKeys_pc, State.setPc_pc, hpc] at ha
    simpa using h.zeros a (by omega)
  case sound => simp [h.sound, decay_zero]
  case level => simp [h.sound, decay_zero]

theorem core_run_succ (M : Host.Core) {s t : M.State} (h : M.step s = .next t) (k : Nat) :
    M.run (k + 1) s = M.run k t := by
  rw [Host.Core.run, h]

theorem Unloaded.run (k : Nat) : ∀ {s : State}, Unloaded s → s.pc.toNat + 2 * k ≤ 0x1000 →
    ∃ t, Host.Core.run Sys2Proof.core k s = .next t ∧ Unloaded t ∧ t.pc.toNat = s.pc.toNat + 2 * k := by
  induction k with
  | zero => exact fun h _ => ⟨_, rfl, h, rfl⟩
  | succ k ih =>
    intro s h hp
    obtain ⟨t, ht, hu, hpc⟩ := h.step (by omega)
    obtain ⟨u, hrun, hu', hpc'⟩ := ih hu (by omega)
    exact ⟨u, (core_run_succ Sys2Proof.core ht k).trans hrun, hu', by omega⟩

theorem Unloaded.beforeFetch_out {s : State} (h : Unloaded s) : (beforeFetch s).out = [] := by
  simp [h.sound, h.level, decay_zero]

/-- Settles O22: every state of the run is `Unloaded`, and 1792 steps of 2 bytes lead from 0x200 to 0x1000. -/
theorem unloadedCoreRunsToTheTopOfMemory : Obligations.UnloadedCoreRunsToTheTopOfMemory := by
  unfold Obligations.UnloadedCoreRunsToTheTopOfMemory
  obtain ⟨s, hrun, hu, hpc⟩ := unloaded_reset.run 1792 (by decide)
  have hpc : s.pc = 0x1000 := BitVec.eq_of_toNat_eq hpc
  refine ⟨s, hrun, hu.fault, hpc, _, step_fetch_fault hu.fault hu.frameRate (by rw [hpc]; decide), rfl, ?_⟩
  rw [takeAddrFault_out, hu.beforeFetch_out, hpc]
  rfl

/-! ### A store is seen by the next fetch (20_memory.md R52) -/

/-- A store of at least two registers at PC itself. -/
theorem exec_stRegs_at_pc {x : Nibble} {s : State} (hx : 1 ≤ x.toNat) (hi : s.i = s.pc)
    (hfit : s.i.toNat + x.toNat ≤ 0xFFF) :
    ∃ m, exec (.stRegs x) s = .next (advanceIndex x (s.setMem m)) ∧
      memByte (s.setMem m) s.pc.toNat = s.reg 0 ∧ memByte (s.setMem m) (s.pc.toNat + 1) = s.reg 1 := by
  obtain ⟨m, run, stored, -⟩ := exec_stRegs_ok hfit
  rw [hi] at stored
  exact ⟨m, run, stored 0 (Nat.zero_le _), stored 1 hx⟩

@[simp] theorem advanceIndex_pc (x : Nibble) (s : State) : (advanceIndex x s).pc = s.pc := by
  rw [advanceIndex_eq_setI, State.setI_pc]

@[simp] theorem advanceIndex_fault (x : Nibble) (s : State) : (advanceIndex x s).fault = s.fault := by
  rw [advanceIndex_eq_setI, State.setI_fault]

/-- The end of a bulk transfer's cycle and steps 1 to 4 of the next touch neither memory nor PC. -/
theorem fetch_after_bulk_transfer (x : Nibble) {s : State} (h : s.pc.toNat ≤ 0xFFE) :
    ∃ u, fetch (beforeFetch (refreshKeys (advanceIndex x s))) =
      .ok (memByte s s.pc.toNat ++ memByte s (s.pc.toNat + 1), u) := by
  rw [fetch_ok (by simpa using h)]
  simp only [beforeFetch_memByte, refreshKeys_memByte, memByte_advanceIndex, beforeFetch_pc, refreshKeys_pc,
    advanceIndex_pc]
  exact ⟨_, rfl⟩

/-- Settles O26. -/
theorem storeIsSeenByTheNextFetch : Obligations.StoreIsSeenByTheNextFetch := by
  unfold Obligations.StoreIsSeenByTheNextFetch
  intro s x hf hr hp hx hw hi hfit
  have hpc : s.pc.toNat + 2 + x.toNat ≤ 0xFFF := by rwa [hi, pc_add_two_toNat hp] at hfit
  obtain ⟨m, run, hhi, hlo⟩ :=
    exec_stRegs_at_pc (s := (beforeFetch s).setPc (s.pc + 2)) hx (by simpa using hi) (by simpa using hfit)
  have hstep : step s = .next (refreshKeys (advanceIndex x (((beforeFetch s).setPc (s.pc + 2)).setMem m))) := by
    rw [step_fetched hf hr hp, hw, run, endCycle_next]
  obtain ⟨u, hu⟩ := fetch_after_bulk_transfer x (s := ((beforeFetch s).setPc (s.pc + 2)).setMem m)
    (by rw [State.setMem_pc, State.setPc_pc, pc_add_two_toNat hp]; omega)
  rw [State.setMem_pc, hhi, hlo] at hu
  exact ⟨_, hstep, by simp [hf], by simp, u, by simpa using hu⟩

end Sys2Proof.Machine

namespace Sys2Proof.Machine

/-! ### Call and return (40_control_flow.md R80, R82, R89) -/

theorem sp_eq_sixteen {n : BitVec 5} : n = 16 ↔ n.toNat = 16 :=
  ⟨fun h => by rw [h]; rfl, fun h => BitVec.eq_of_toNat_eq h⟩

theorem exec_call_room (nnn : Addr) {s : State} (h : s.sp.toNat < 16) : exec (.call nnn) s =
    .next { s with stack := s.stack.setIfInBounds s.sp.toNat s.pc, sp := s.sp + 1, pc := addr16 nnn } := by
  have hb : s.stackBroken = false := stackBroken_eq_false.2 h.le
  have hs : s.sp ≠ 16 := fun e => by have := sp_eq_sixteen.1 e; omega
  show execCall nnn s = _
  rw [execCall, hb, push_room _ hs]
  rfl

theorem exec_call_full (nnn : Addr) {s : State} (h : s.sp.toNat = 16) :
    exec (.call nnn) s = .next ((s.emit .stackOverflow).setPc (addr16 nnn)) := by
  have hb : s.stackBroken = false := stackBroken_eq_false.2 h.le
  show execCall nnn s = _
  rw [execCall, hb, push_full _ (sp_eq_sixteen.2 h)]
  rfl

theorem exec_ret_item (g : Nibble) {s : State} {k : Nat} (hk : k < 16) (h : s.sp.toNat = k + 1) :
    exec (.ret g) s = .next { s with sp := s.sp - 1, pc := s.stack[k] } := by
  have hb : s.stackBroken = false := stackBroken_eq_false.2 (by omega)
  have hs : s.sp ≠ 0 := fun e => by simp [e] at h
  have slot : s.stack.toList.getD (s.sp.toNat - 1) 0 = s.stack[k] := by simp [h, List.getD_eq_getElem?_getD, hk]
  show execRet s = _
  rw [execRet, hb, pop_item hs, slot]
  rfl

theorem exec_ret_empty (g : Nibble) {s : State} (h : s.sp.toNat = 0) :
    exec (.ret g) s = .next (s.emit .stackUnderflow) := by
  have hb : s.stackBroken = false := stackBroken_eq_false.2 (by omega)
  show execRet s = _
  rw [execRet, hb, pop_empty (BitVec.eq_of_toNat_eq h)]
  rfl

/-- Settles O29. -/
theorem callPushesAndJumps : Obligations.CallPushesAndJumps := by
  unfold Obligations.CallPushesAndJumps
  intro nnn s hs
  obtain hroom | hfull := Nat.lt_or_eq_of_le hs
  · refine ⟨_, exec_call_room nnn hroom, addr16_toNat nnn, fun _ => ⟨sp_add_one hroom, fun k hk => ?_, ?_⟩,
      fun h => by omega⟩
    · simp [Vector.getElem_setIfInBounds, eq_comm]
    · exact (s.unchangedBut_stack_pc _ _ _).mono (by simp)
  · refine ⟨_, exec_call_full nnn hfull, addr16_toNat nnn, fun h => by omega, fun _ => ⟨rfl, ?_⟩⟩
    exact ((s.unchangedBut_emit _).trans (State.unchangedBut_setPc _ _)).mono (by simp)

/-- Settles O30. -/
theorem returnPopsThePc : Obligations.ReturnPopsThePc := by
  unfold Obligations.ReturnPopsThePc
  intro g s hs
  by_cases h0 : s.sp.toNat = 0
  · exact ⟨_, exec_ret_empty g h0, fun k _ h => by omega, fun _ => ⟨rfl, s.unchangedBut_emit _⟩⟩
  · obtain ⟨k, h⟩ : ∃ k, s.sp.toNat = k + 1 := ⟨s.sp.toNat - 1, by omega⟩
    refine ⟨_, exec_ret_item g (by omega) h, fun j hj hk => ?_, fun e => absurd e h0⟩
    obtain rfl : j = k := by omega
    have hsp : (s.sp - 1).toNat = j := by rw [sp_sub_one fun e => h0 (by simp [e])]; omega
    exact ⟨rfl, hsp, rfl, (s.unchangedBut_stack_pc s.stack _ _).mono (by simp)⟩

/-- Settles O31: the slot CALL wrote is the one RET reads. -/
theorem returnUndoesCall : Obligations.ReturnUndoesCall := by
  unfold Obligations.ReturnUndoesCall
  intro nnn g s hs
  have hpc : (s.stack.setIfInBounds s.sp.toNat s.pc)[s.sp.toNat] = s.pc := Vector.getElem_setIfInBounds_self ..
  refine ⟨_, _, exec_call_room nnn hs, exec_ret_item g hs (sp_add_one hs), hpc, by simp, fun p hp => ?_⟩
  by_cases h : p = .pc
  · subst h; exact hpc
  · refine ((s.unchangedBut_stack_pc _ _ _).trans (State.unchangedBut_stack_pc _ _ _ _)) p ?_
    simpa [h] using hp

/-- Settles O32. -/
theorem brokenStackIsRefused : Obligations.BrokenStackIsRefused := by
  unfold Obligations.BrokenStackIsRefused
  intro nnn g s hs
  have hb : s.stackBroken = true := decide_eq_true hs
  exact ⟨if_pos hb, if_pos hb⟩

end Sys2Proof.Machine

namespace Sys2Proof.Machine

/-! ### The instructions that write one register (41_alu.md R100 to R105, 44_input_random_timer.md R157) -/

theorem exec_ldImm (x : Nibble) (nn : Byte) (s : State) : exec (.ldImm x nn) s = .next (s.setReg x nn) := rfl

theorem exec_addImm (x : Nibble) (nn : Byte) (s : State) :
    exec (.addImm x nn) s = .next (s.setReg x (s.reg x + nn)) := rfl

theorem exec_orReg (x y : Nibble) (s : State) :
    exec (.orReg x y) s = .next (s.setReg x (s.reg x ||| s.reg y)) := rfl

theorem exec_andReg (x y : Nibble) (s : State) :
    exec (.andReg x y) s = .next (s.setReg x (s.reg x &&& s.reg y)) := rfl

theorem exec_xorReg (x y : Nibble) (s : State) :
    exec (.xorReg x y) s = .next (s.setReg x (s.reg x ^^^ s.reg y)) := rfl

theorem exec_ldVxDt (x : Nibble) (s : State) : exec (.ldVxDt x) s = .next (s.setReg x s.dt) := rfl

theorem exec_ldDtVx (x : Nibble) (s : State) : exec (.ldDtVx x) s = .next (s.setDt (s.reg x)) := rfl

theorem exec_ldStVx (x : Nibble) (s : State) : exec (.ldStVx x) s = .next (s.setSt (s.reg x)) := rfl

/-- Settles O34. -/
theorem immediatesLoadAndAdd : Obligations.ImmediatesLoadAndAdd := by
  unfold Obligations.ImmediatesLoadAndAdd
  refine fun x nn s => ⟨⟨_, exec_ldImm x nn s, s.reg_setReg_self x _, s.unchangedBut_setReg x _⟩,
    ⟨_, exec_addImm x nn s, ?_, s.unchangedBut_setReg x _⟩⟩
  rw [State.reg_setReg_self, BitVec.toNat_add]

/-- Settles O36. -/
theorem logicWritesOneRegister : Obligations.LogicWritesOneRegister := by
  unfold Obligations.LogicWritesOneRegister
  intro x y s
  refine ⟨⟨_, exec_orReg x y s, s.unchangedBut_setReg x _, fun k => ?_⟩,
    ⟨_, exec_andReg x y s, s.unchangedBut_setReg x _, fun k => ?_⟩,
    ⟨_, exec_xorReg x y s, s.unchangedBut_setReg x _, fun k => ?_⟩⟩
  · rw [State.reg_setReg_self, BitVec.getLsbD_or]
  · rw [State.reg_setReg_self, BitVec.getLsbD_and]
  · rw [State.reg_setReg_self, BitVec.getLsbD_xor]

/-- Settles O54. -/
theorem timersAreReadAndSet : Obligations.TimersAreReadAndSet := by
  unfold Obligations.TimersAreReadAndSet
  exact fun x s => ⟨⟨_, exec_ldVxDt x s, s.reg_setReg_self x _, s.unchangedBut_setReg x _⟩,
    ⟨_, exec_ldDtVx x s, rfl, s.unchangedBut_setDt _⟩, ⟨_, exec_ldStVx x s, rfl, s.unchangedBut_setSt _⟩⟩

/-! ### Sum and differences: the flag first, the result second (41_alu.md R106, R107, R109) -/

/-- A flag written to VF and then a result written to V[X]: VF keeps the flag unless it is V[X]. -/
theorem flag_then_result {i : Instr} {s : State} {x : Nibble} {b : Byte} {p : Prop} [Decidable p] {n : Nat}
    (hi : exec i s = .next ((s.setVf (flagByte (decide p))).setReg x b)) (hb : b.toNat = n) :
    ∃ t, exec i s = .next t ∧ (t.reg x).toNat = n ∧ (x ≠ 0xF → t.reg 0xF = if p then 1 else 0) ∧
      s.unchangedBut t [.reg x, .reg 0xF] := by
  refine ⟨_, hi, by rw [State.reg_setReg_self, hb], fun hx => ?_, unchangedBut_flag_result s x _ _⟩
  have hflag : (s.setVf (flagByte (decide p))).reg 0xF = flagByte (decide p) := s.reg_setReg_self vf _
  rw [State.reg_setReg_ne _ _ hx.symm, hflag]
  by_cases hp : p <;> simp [flagByte, hp]

/-- Settles O37. -/
theorem addSetsTheCarry : Obligations.AddSetsTheCarry := by
  unfold Obligations.AddSetsTheCarry
  exact fun x y s => flag_then_result rfl (BitVec.toNat_add _ _)

theorem toNat_sub_byte (a b : Byte) : (a - b).toNat = (a.toNat + 256 - b.toNat) % 256 := by
  have := b.isLt
  rw [BitVec.toNat_sub]
  omega

/-- Settles O38. -/
theorem subtractionsSetNoBorrow : Obligations.SubtractionsSetNoBorrow := by
  unfold Obligations.SubtractionsSetNoBorrow
  exact fun x y s => ⟨flag_then_result rfl (toNat_sub_byte _ _), flag_then_result rfl (toNat_sub_byte _ _)⟩

/-! ### Shifts (41_alu.md R108, R110) -/

theorem lowBitFlag_toNat (b : Byte) : (lowBitFlag b).toNat = b.toNat % 2 := Nat.and_one_is_mod _

theorem highBitFlag_toNat (b : Byte) : (highBitFlag b).toNat = b.toNat / 128 := by
  have hlt := b.isLt
  have h : (highBitFlag b).toNat = b.toNat / 128 % 2 := by
    rw [highBitFlag, BitVec.toNat_and, BitVec.toNat_ushiftRight, Nat.shiftRight_eq_div_pow]
    exact Nat.and_one_is_mod _
  omega

theorem shiftRight_one_toNat (b : Byte) : (b >>> 1).toNat = b.toNat / 2 := by
  rw [BitVec.toNat_ushiftRight, Nat.shiftRight_eq_div_pow, pow_one]

theorem shiftLeft_one_toNat (b : Byte) : (b <<< 1).toNat = b.toNat * 2 % 256 := by
  rw [BitVec.toNat_shiftLeft, Nat.shiftLeft_eq, pow_one]

/-- The target holds the shifted operand's byte after step 1. -/
theorem shiftCopy_reg (x y : Nibble) (s : State) :
    (shiftCopy x y s).reg x = if s.cfgShift = .old then s.reg y else s.reg x := by
  unfold shiftCopy
  cases s.cfgShift with
  | old => simp
  | new => simp

theorem shiftInPlace_of_ne {flag shift : Byte → Byte} {x : Nibble} (hx : x ≠ 0xF) (s : State) :
    (shiftInPlace flag shift x s).reg x = shift (s.reg x) ∧ (shiftInPlace flag shift x s).reg 0xF = flag (s.reg x) := by
  have hvf : (0xF : Nibble) ≠ x := hx.symm
  have kept : (s.setVf (flag (s.reg x))).reg x = s.reg x := s.reg_setReg_ne _ hx
  refine ⟨?_, ?_⟩
  · rw [shiftInPlace, State.reg_setReg_self, kept]
  · rw [shiftInPlace, State.reg_setReg_ne _ _ hvf]
    exact s.reg_setReg_self vf _

/-- With VF as the target the shift is of the flag just written. -/
theorem shiftInPlace_vf (flag shift : Byte → Byte) (s : State) :
    (shiftInPlace flag shift 0xF s).reg 0xF = shift (flag (s.reg 0xF)) := by
  have hflag : (s.setVf (flag (s.reg 0xF))).reg 0xF = flag (s.reg 0xF) := s.reg_setReg_self vf _
  rw [shiftInPlace, State.reg_setReg_self, hflag]

theorem exec_shr (x y : Nibble) (s : State) :
    exec (.shr x y) s = .next (shiftInPlace lowBitFlag (fun b => b >>> 1) x (shiftCopy x y s)) := rfl

theorem exec_shl (x y : Nibble) (s : State) :
    exec (.shl x y) s = .next (shiftInPlace highBitFlag (fun b => b <<< 1) x (shiftCopy x y s)) := rfl

/-- Settles O39. -/
theorem shiftsMoveOneBit : Obligations.ShiftsMoveOneBit := by
  unfold Obligations.ShiftsMoveOneBit
  rintro x y s _ rfl
  rw [← shiftCopy_reg x y s]
  refine ⟨⟨_, exec_shr x y s, unchangedBut_shift _ _ x y s, fun hx => ?_, ?_⟩,
    ⟨_, exec_shl x y s, unchangedBut_shift _ _ x y s, fun hx => ?_, ?_⟩⟩
  · obtain ⟨hresult, hflag⟩ := shiftInPlace_of_ne (flag := lowBitFlag) (shift := fun b => b >>> 1) hx (shiftCopy x y s)
    rw [hresult, hflag]
    exact ⟨shiftRight_one_toNat _, lowBitFlag_toNat _⟩
  · rintro rfl
    rw [shiftInPlace_vf, shiftRight_one_toNat, lowBitFlag_toNat]
    omega
  · obtain ⟨hresult, hflag⟩ := shiftInPlace_of_ne (flag := highBitFlag) (shift := fun b => b <<< 1) hx (shiftCopy x y s)
    rw [hresult, hflag]
    exact ⟨shiftLeft_one_toNat _, highBitFlag_toNat _⟩
  · rintro rfl
    have := ((shiftCopy 0xF y s).reg 0xF).isLt
    rw [shiftInPlace_vf, shiftLeft_one_toNat, highBitFlag_toNat]
    omega

end Sys2Proof.Machine

namespace Sys2Proof.Machine

/-! ### VF as an operand (41_alu.md R119): what one register holds afterwards -/

theorem leaves_of_setReg {i : Instr} {s : State} {x : Nibble} {b : Byte} {n : Nat}
    (hi : exec i s = .next (s.setReg x b)) (hb : b.toNat = n) : leaves i s x n :=
  ⟨_, hi, by rw [State.reg_setReg_self, hb]⟩

/-- Result and flag, read off the form in which O37 and O38 state the three arithmetic instructions. -/
theorem leaves_of_flag_then_result {i : Instr} {s : State} {x : Nibble} {p : Prop} [Decidable p] {n : Nat}
    (h : ∃ t, exec i s = .next t ∧ (t.reg x).toNat = n ∧ (x ≠ 0xF → t.reg 0xF = if p then 1 else 0) ∧
      s.unchangedBut t [.reg x, .reg 0xF]) :
    leaves i s x n ∧ (x ≠ 0xF → leaves i s 0xF (if p then 1 else 0)) := by
  obtain ⟨t, run, result, flag, -⟩ := h
  refine ⟨⟨t, run, result⟩, fun hx => ⟨t, run, ?_⟩⟩
  rw [flag hx, apply_ite BitVec.toNat]
  rfl

section Shifts
variable {x y : Nibble} {s : State} {b : Byte}

theorem leaves_shr (hx : x ≠ 0xF) (hb : b = if s.cfgShift = .old then s.reg y else s.reg x) :
    leaves (.shr x y) s x (b.toNat / 2) ∧ leaves (.shr x y) s 0xF (b.toNat % 2) := by
  obtain ⟨⟨t, run, -, hne, -⟩, -⟩ := shiftsMoveOneBit x y s b hb
  exact ⟨⟨t, run, (hne hx).1⟩, ⟨t, run, (hne hx).2⟩⟩

theorem leaves_shl (hx : x ≠ 0xF) (hb : b = if s.cfgShift = .old then s.reg y else s.reg x) :
    leaves (.shl x y) s x (b.toNat * 2 % 256) ∧ leaves (.shl x y) s 0xF (b.toNat / 128) := by
  obtain ⟨-, ⟨t, run, -, hne, -⟩⟩ := shiftsMoveOneBit x y s b hb
  exact ⟨⟨t, run, (hne hx).1⟩, ⟨t, run, (hne hx).2⟩⟩

theorem leaves_shr_vf : leaves (.shr 0xF y) s 0xF 0 := by
  obtain ⟨⟨t, run, -, -, hvf⟩, -⟩ := shiftsMoveOneBit 0xF y s _ rfl
  exact ⟨t, run, hvf rfl⟩

theorem leaves_shl_vf (hb : b = if s.cfgShift = .old then s.reg y else s.reg 0xF) :
    leaves (.shl 0xF y) s 0xF (2 * (b.toNat / 128)) := by
  obtain ⟨-, ⟨t, run, -, -, hvf⟩⟩ := shiftsMoveOneBit 0xF y s b hb
  exact ⟨t, run, hvf rfl⟩

end Shifts

/-- Settles O40: each entry of the table is O35 to O39 with VF as X, Y or both. -/
theorem flagRegisterAsOperand : Obligations.FlagRegisterAsOperand := by
  unfold Obligations.FlagRegisterAsOperand
  rintro s x y _ _ _ hx - rfl rfl rfl
  have add (x y : Nibble) := leaves_of_flag_then_result (addSetsTheCarry x y s)
  have sub (x y : Nibble) := leaves_of_flag_then_result (subtractionsSetNoBorrow x y s).1
  have subn (x y : Nibble) := leaves_of_flag_then_result (subtractionsSetNoBorrow x y s).2
  have double : ((s.reg 0xF).toNat + (s.reg 0xF).toNat) % 256 = 2 * (s.reg 0xF).toNat % 256 := by rw [two_mul]
  have difference : ((s.reg 0xF).toNat + 256 - (s.reg 0xF).toNat) % 256 = 0 := by rw [Nat.add_sub_cancel_left]
  refine ⟨⟨(add 0xF y).1, (add x 0xF).1, (add x 0xF).2 hx, double ▸ (add 0xF 0xF).1⟩,
    ⟨(sub 0xF y).1, (sub x 0xF).1, (sub x 0xF).2 hx, difference ▸ (sub 0xF 0xF).1⟩,
    ⟨(subn 0xF y).1, (subn x 0xF).1, (subn x 0xF).2 hx, difference ▸ (subn 0xF 0xF).1⟩,
    fun hnew => ?_, fun hold => ?_, ?_⟩
  · have ofTarget (x y : Nibble) : s.reg x = if s.cfgShift = .old then s.reg y else s.reg x := by simp [hnew]
    exact ⟨leaves_shr_vf, leaves_shr_vf, leaves_shl_vf (ofTarget _ _), leaves_shl_vf (ofTarget _ _),
      (leaves_shr hx (ofTarget _ _)).1, (leaves_shl hx (ofTarget _ _)).1⟩
  · have ofSource (x y : Nibble) : s.reg y = if s.cfgShift = .old then s.reg y else s.reg x := by simp [hold]
    exact ⟨leaves_shr_vf, (leaves_shr hx (ofSource _ _)).1, (leaves_shr hx (ofSource _ _)).2, leaves_shr_vf,
      leaves_shl_vf (ofSource _ _), (leaves_shl hx (ofSource _ _)).1, (leaves_shl hx (ofSource _ _)).2,
      leaves_shl_vf (ofSource _ _)⟩
  · exact ⟨leaves_of_setReg (exec_ldReg 0xF y s) rfl, leaves_of_setReg (exec_ldReg x 0xF s) rfl,
      leaves_of_setReg (exec_orReg 0xF y s) (BitVec.toNat_or _ _),
      leaves_of_setReg (exec_orReg x 0xF s) (BitVec.toNat_or _ _),
      leaves_of_setReg (exec_andReg 0xF y s) (BitVec.toNat_and _ _),
      leaves_of_setReg (exec_andReg x 0xF s) (BitVec.toNat_and _ _),
      leaves_of_setReg (exec_xorReg 0xF y s) (BitVec.toNat_xor _ _),
      leaves_of_setReg (exec_xorReg x 0xF s) (BitVec.toNat_xor _ _)⟩

/-! ### Adding to I (42_index_memory.md R121) -/

theorem exec_addI (x : Nibble) (s : State) : exec (.addI x) s =
    .next (if indexExceeds (s.i + byte16 (s.reg x)) then (s.setI (s.i + byte16 (s.reg x))).setReg vf 1
      else s.setI (s.i + byte16 (s.reg x))) := rfl

theorem add_byte16_toNat (a : Half) (b : Byte) : (a + byte16 b).toNat = (a.toNat + b.toNat) % 65536 := by
  rw [BitVec.toNat_add, byte16, BitVec.toNat_setWidth_of_le (by decide)]

/-- Settles O42. -/
theorem indexAddFlagsBeyondMemory : Obligations.IndexAddFlagsBeyondMemory := by
  unfold Obligations.IndexAddFlagsBeyondMemory
  intro x s
  have index := add_byte16_toNat s.i (s.reg x)
  by_cases h : indexExceeds (s.i + byte16 (s.reg x)) = true
  · have run : exec (.addI x) s = .next ((s.setI (s.i + byte16 (s.reg x))).setReg vf 1) := by rw [exec_addI, if_pos h]
    refine ⟨_, run, index, ?_, exec_unchangedBut run⟩
    exact (State.reg_setReg_self _ vf 1).trans (if_pos (of_decide_eq_true h)).symm
  · have run : exec (.addI x) s = .next (s.setI (s.i + byte16 (s.reg x))) := by rw [exec_addI, if_neg h]
    exact ⟨_, run, index, (if_neg fun hlt => h (decide_eq_true hlt)).symm, exec_unchangedBut run⟩

end Sys2Proof.Machine

namespace Sys2Proof.Machine

/-! ### Draws that fit in memory and draws that do not (43_display.md R141) -/

/-- A coordinate of a draw: taken modulo the display's size, after VF was cleared (92_eei_decisions.md D9). -/
def drawCoord (s : State) (x : Nibble) (size : Nat) : Nat := (if x = 0xF then 0 else (s.reg x).toNat) % size

/-- The rows of DRW x, y, n that lie above the bottom edge. -/
def drawnRows (s : State) (y n : Nibble) : Nat := min n.toNat (32 - drawCoord s y 32)

/-- DRW x, y, n has a set sprite bit on the cell in column `cx` and row `cy`. -/
def drawCovers (s : State) (x y n : Nibble) (cx cy : Nat) : Prop :=
  spriteCovers s.mem s.i.toNat (drawCoord s x 64) (drawCoord s y 32) (drawnRows s y n) cx cy

theorem reg_setVf_zero_toNat (s : State) (x : Nibble) :
    ((s.setVf 0).reg x).toNat = if x = 0xF then 0 else (s.reg x).toNat := by
  rw [State.setVf, State.reg_setReg, apply_ite BitVec.toNat]
  rfl

theorem exec_drw (x y n : Nibble) (s : State) : exec (.drw x y n) s =
    withAccess (drawRows s.par s.mem (drawCoord s x 64) (drawnRows s y n) s.i.toNat (drawCoord s y 32) (s.disp, false))
      fun r => .next (((s.setReg vf 0).setDisp r.1).setReg vf (flagByte r.2)) := by
  show execDrw x y n s = _
  simp only [execDrw, reg_setVf_zero_toNat]
  rfl

theorem exec_drw_fault {x y n : Nibble} {s : State} (h0 : 0 < drawnRows s y n)
    (h : 0x1000 < s.i.toNat + drawnRows s y n) :
    exec (.drw x y n) s = .fault (.addrFault (max s.i.toNat 0x1000)) := by
  rw [exec_drw, drawRows_fault _ _ _ _ _ _ _ h h0, withAccess_error]

/-- A draw whose rows lie in memory toggles the covered cells alone, and VF says whether one of them was lit. -/
theorem exec_drw_ok (x : Nibble) {y n : Nibble} {s : State}
    (h : drawnRows s y n = 0 ∨ s.i.toNat + drawnRows s y n ≤ 0x1000) :
    ∃ t, exec (.drw x y n) s = .next t ∧
      (∀ cx cy, cx < 64 → (drawCovers s x y n cx cy → pixel t cx cy = toggled s.par (pixel s cx cy)) ∧
        (¬drawCovers s x y n cx cy → pixel t cx cy = pixel s cx cy)) ∧
      (t.reg 0xF = 0 ∨ t.reg 0xF = 1) ∧
      (t.reg 0xF = 1 ↔ ∃ cx cy, cx < 64 ∧ drawCovers s x y n cx cy ∧ pixel s cx cy = onValue s.par) := by
  obtain ⟨r, drawn, cells, hit⟩ :=
    drawRows_ok s.par s.mem (drawCoord s x 64) _ s.i.toNat (drawCoord s y 32) (s.disp, false) h
  have run : exec (.drw x y n) s = .next (((s.setReg vf 0).setDisp r.1).setReg vf (flagByte r.2)) := by
    rw [exec_drw, drawn, withAccess_ok]
  have hvf : (((s.setReg vf 0).setDisp r.1).setReg vf (flagByte r.2)).reg 0xF = flagByte r.2 :=
    State.reg_setReg_self _ vf _
  refine ⟨_, run, cells, ?_, ?_⟩
  · rw [hvf]; exact flagByte_cases r.2
  · rw [hvf, flagByte_eq_one, hit]
    simp [pixel, drawCovers]

/-- Settles O46. -/
theorem outOfRangeAccessReportsTheFirstByte : Obligations.OutOfRangeAccessReportsTheFirstByte := by
  unfold Obligations.OutOfRangeAccessReportsTheFirstByte
  rintro x y n s _ _ rfl rfl
  refine ⟨exec_ldB_fault x, fun h => ⟨exec_stRegs_fault h, exec_ldRegs_fault h⟩, exec_drw_fault, fun h => ?_⟩
  obtain ⟨t, run, -⟩ := exec_drw_ok x h
  exact ⟨t, run⟩

theorem onValue_eq (p : Config.Params) : onValue p = if p.pixelMode = .alpha then 255 else 1 := by
  unfold onValue
  cases p.pixelMode <;> rfl

theorem offValue_eq (p : Config.Params) : offValue p = if p.pixelMode = .alpha then 255 - p.fadeStep.val else 0 := by
  unfold offValue
  cases p.pixelMode <;> rfl

/-- Settles O48. -/
theorem drawTogglesTheSpriteCells : Obligations.DrawTogglesTheSpriteCells := by
  unfold Obligations.DrawTogglesTheSpriteCells
  rintro x y n s _ _ _ _ _ rfl rfl rfl rfl rfl h
  obtain ⟨t, run, cells, hvf, hit⟩ := exec_drw_ok x h
  rw [← onValue_eq, ← offValue_eq]
  refine ⟨t, run, exec_unchangedBut run, cells, hvf, hit.trans ?_⟩
  simp only [drawCovers, spriteCovers, and_assoc]
  rfl

/-! ### Drawing twice -/

theorem toggled_twice {p : Config.Params} (hp : p.pixelMode = .binary) {c : Byte} (hc : c = 0 ∨ c = 1) :
    toggled p (toggled p c) = c := by
  simp only [toggled, onValue, offValue, hp]
  obtain rfl | rfl := hc <;> decide

/-- A draw that completed had its rows in memory. -/
theorem exec_drw_fits {x y n : Nibble} {s t : State} (h : exec (.drw x y n) s = .next t) :
    drawnRows s y n = 0 ∨ s.i.toNat + drawnRows s y n ≤ 0x1000 := by
  by_contra hc
  rw [exec_drw_fault (by omega) (by omega)] at h
  cases h

section AfterDraw
variable {s t : State} (frame : s.unchangedBut t [.disp, .reg 0xF])
include frame

/-! A draw changes the display and VF alone, and its place depends on neither: a coordinate in VF counts as 0. -/

theorem drawCoord_after_draw (x : Nibble) (size : Nat) : drawCoord t x size = drawCoord s x size := by
  unfold drawCoord
  by_cases hx : x = 0xF
  · rw [if_pos hx, if_pos hx]
  · have hreg : t.reg x = s.reg x := frame (.reg x) (by simpa using hx)
    rw [hreg]

theorem drawnRows_after_draw (y n : Nibble) : drawnRows t y n = drawnRows s y n := by
  rw [drawnRows, drawCoord_after_draw frame, drawnRows]

theorem drawCovers_after_draw (x y n : Nibble) (cx cy : Nat) : drawCovers t x y n cx cy ↔ drawCovers s x y n cx cy := by
  have hi : t.i = s.i := frame .index (by simp)
  have hmem (a : Nat) : cellRead blankMem t.mem a = cellRead blankMem s.mem a := frame .mem (by simp) a
  simp only [drawCovers, spriteCovers, drawCoord_after_draw frame, drawnRows_after_draw frame, hi, hmem]

end AfterDraw

/-- Settles O49: the second draw covers the same cells, and a cell toggled twice is as before. -/
theorem drawingTwiceRestoresTheDisplay : Obligations.DrawingTwiceRestoresTheDisplay := by
  unfold Obligations.DrawingTwiceRestoresTheDisplay
  intro x y n s t hbin hcells hdraw
  have frame : s.unchangedBut t [.disp, .reg 0xF] := exec_unchangedBut hdraw
  have hpar : t.par = s.par := frame .params (by simp)
  have hi : t.i = s.i := frame .index (by simp)
  have fits := exec_drw_fits hdraw
  obtain ⟨t', hdraw', first, -⟩ := exec_drw_ok x fits
  obtain rfl : t' = t := Host.Outcome.next.inj (hdraw'.symm.trans hdraw)
  obtain ⟨u, run, second, -⟩ := exec_drw_ok (s := t') x (by rwa [drawnRows_after_draw frame, hi])
  refine ⟨u, run, fun cx cy hx => ?_⟩
  obtain ⟨first_covered, first_other⟩ := first cx cy hx
  obtain ⟨second_covered, second_other⟩ := second cx cy hx
  rw [drawCovers_after_draw frame] at second_covered second_other
  by_cases hc : drawCovers s x y n cx cy
  · rw [second_covered hc, first_covered hc, hpar, toggled_twice hbin (hcells cx cy)]
  · rw [second_other hc, first_other hc]

end Sys2Proof.Machine

namespace Sys2Proof.Machine

/-! ### The input ports: a sample is the first one lined up (44_input_random_timer.md R150, R152) -/

theorem nextRand_of_cons {s : State} {r : Byte} {rest : List Byte} (h : s.randTape = r :: rest) :
    s.nextRand = r ∧ s.randed.randTape = rest := by
  simp [State.nextRand, h]

theorem nextKeys_of_cons {s : State} {k : Half} {rest : List Half} (h : s.keyTape = k :: rest) :
    s.nextKeys = k ∧ s.polled.keyTape = rest := by
  simp [State.nextKeys, h]

/-- Settles O51. -/
theorem randomByteIsMasked : Obligations.RandomByteIsMasked := by
  unfold Obligations.RandomByteIsMasked
  intro x nn s
  have run := exec_rnd x nn s
  refine ⟨_, s.nextRand, run, fun r0 rest h => nextRand_of_cons h, State.reg_setReg_self _ x _, rfl, rfl, ?_⟩
  exact exec_unchangedBut run

/-- An instruction that polls and skips on a test of the sample that decides `p`. -/
theorem poll_and_skip {i : Instr} {s : State} {c : Bool} {p : Half → Prop} [DecidablePred p]
    (hi : exec i s = .next (s.polled.skipIf c)) (hc : c = true ↔ p s.nextKeys) :
    ∃ t k, exec i s = .next t ∧ (∀ k0 rest, s.keyTape = k0 :: rest → k = k0 ∧ t.keyTape = rest) ∧
      t.pc = (if p k then s.pc + 2 else s.pc) ∧ t.out = s.out ++ [.poll] ∧ t.randTape = s.randTape ∧
      s.unchangedBut t [.pc, .inputs, .events] :=
  ⟨_, s.nextKeys, hi, fun _ _ h => nextKeys_of_cons h, if_congr hc rfl rfl, rfl, rfl,
    (s.unchangedBut_polled.trans (State.unchangedBut_setPc _ _)).mono (by simp)⟩

theorem keyHeld_iff (keys : Half) (index : Byte) :
    keyHeld keys index = true ↔ index.toNat ≤ 0x0F ∧ keys.getLsbD index.toNat = true := by
  rw [keyHeld, Bool.and_eq_true, decide_eq_true_iff]

theorem keyNotHeld_iff (keys : Half) (index : Byte) :
    keyNotHeld keys index = true ↔ index.toNat ≤ 0x0F ∧ keys.getLsbD index.toNat = false := by
  rw [keyNotHeld, Bool.and_eq_true, decide_eq_true_iff, Bool.not_eq_true']

/-- Settles O52. -/
theorem keySkipsTestOneKey : Obligations.KeySkipsTestOneKey := by
  unfold Obligations.KeySkipsTestOneKey
  exact fun x s => ⟨poll_and_skip (p := fun k => _ ∧ k.getLsbD _ = true) rfl (keyHeld_iff _ _),
    poll_and_skip (p := fun k => _ ∧ k.getLsbD _ = false) rfl (keyNotHeld_iff _ _)⟩

/-! ### The key wait (44_input_random_timer.md R156) -/

theorem lowestBit_eq_some {m : Half} {j : Nat} (hj : m.getLsbD j = true) (hl : ∀ l < j, m.getLsbD l = false) :
    lowestBit m = some j := by
  cases h : lowestBit m with
  | none => simp [lowestBit_none h] at hj
  | some k =>
    obtain ⟨-, hk, below⟩ := lowestBit_some h
    obtain hlt | rfl | hgt := Nat.lt_trichotomy j k
    · simp [below j hlt] at hj
    · rfl
    · simp [hl k hgt] at hk

theorem lowestBit_zero : lowestBit 0 = none := by decide

section Release
variable {x : Nibble} {prev now : Half} {s : State}

theorem takeRelease_lowest {j : Nat} (hj : j < 16) (held : prev.getLsbD j = true) (gone : now.getLsbD j = false)
    (lowest : ∀ l, l < j → prev.getLsbD l = true → now.getLsbD l = true) :
    ((takeRelease x (released prev now) s).reg x).toNat = j := by
  have hbit : lowestBit (released prev now) = some j := by
    refine lowestBit_eq_some (by rw [released_getLsbD _ _ hj, held, gone]; rfl) fun l hl => ?_
    rw [released_getLsbD _ _ (by omega)]
    cases hp : prev.getLsbD l with
    | false => rfl
    | true => rw [lowest l hl hp]; rfl
  rw [takeRelease, hbit]
  show ((s.setReg x (BitVec.ofNat 8 j)).reg x).toNat = j
  rw [State.reg_setReg_self, BitVec.toNat_ofNat, Nat.mod_eq_of_lt (by omega)]

theorem takeRelease_none (h : ∀ j, j < 16 → prev.getLsbD j = true → now.getLsbD j = true) :
    takeRelease x (released prev now) s = s := by
  have hzero : released prev now = 0 := by
    apply BitVec.eq_of_getLsbD_eq
    intro j hj
    rw [released_getLsbD _ _ hj]
    cases hp : prev.getLsbD j with
    | false => simp
    | true => simp [h j hj hp]
  rw [takeRelease, hzero, lowestBit_zero]

end Release

theorem takeRelease_pc (x : Nibble) (rel : Half) (s : State) : (takeRelease x rel s).pc = s.pc :=
  unchangedBut_takeRelease x rel s .pc (by simp)

theorem exec_ldVxK_waits (x : Nibble) {s : State} (h : s.lastKeyState = 0 ∨ s.lastKeyState = s.nextKeys) :
    exec (.ldVxK x) s = .next (s.polled.setPc (s.pc - 2)) :=
  congrArg Host.Outcome.next (if_pos h)

theorem exec_ldVxK_ends (x : Nibble) {s : State} (h : ¬(s.lastKeyState = 0 ∨ s.lastKeyState = s.nextKeys)) :
    exec (.ldVxK x) s = .next (takeRelease x (released s.lastKeyState s.nextKeys) s.polled) :=
  congrArg Host.Outcome.next (if_neg h)

/-- Settles O53. -/
theorem keyWaitEndsOnRelease : Obligations.KeyWaitEndsOnRelease := by
  unfold Obligations.KeyWaitEndsOnRelease
  intro x s
  have polls {t : State} (run : exec (.ldVxK x) s = .next t) :
      (∀ k0 rest, s.keyTape = k0 :: rest → s.nextKeys = k0 ∧ t.keyTape = rest) ∧ t.out = s.out ++ [.poll] ∧
        t.randTape = s.randTape ∧ s.unchangedBut t [.pc, .reg x, .inputs, .events] := by
    obtain ⟨hkeys, hrand, hout⟩ := exec_of_poller (by simp [pollers, Instr.mnemonic]) run
    exact ⟨fun k0 rest h => ⟨(nextKeys_of_cons h).1, by rw [hkeys, h]; rfl⟩, hout, hrand, exec_unchangedBut run⟩
  by_cases h : s.lastKeyState = 0 ∨ s.lastKeyState = s.nextKeys
  · have run := exec_ldVxK_waits x h
    obtain ⟨hkeys, hout, hrand, frame⟩ := polls run
    exact ⟨_, s.nextKeys, run, hkeys, hout, hrand, frame, fun _ => ⟨rfl, rfl⟩,
      fun h0 hk => absurd h (not_or.2 ⟨h0, hk⟩)⟩
  · have run := exec_ldVxK_ends x h
    obtain ⟨hkeys, hout, hrand, frame⟩ := polls run
    refine ⟨_, s.nextKeys, run, hkeys, hout, hrand, frame, fun h' => absurd h' h,
      fun _ _ => ⟨takeRelease_pc x _ _, ?_, ?_⟩⟩
    · exact fun j => takeRelease_lowest
    · intro hnone
      rw [takeRelease_none hnone, State.polled_reg]

/-! ### Load, frame rate and reset (70_reset_and_hazards.md R220, R225, R227) -/

theorem hostMove_load {bytes : List Byte} {s : State} (hlen : bytes.length ≤ 3584) (hf : s.fault = false) :
    hostMove (.load bytes) s = .next ((s.setMem (fillBytes s.mem 0x200 bytes)).setPc 0x200) := by
  have fits : ¬Config.maxProgram < bytes.length := not_lt.2 hlen
  show hostLoad bytes s = _
  rw [hostLoad, if_neg fits, hf]
  rfl

/-- Settles O55. -/
theorem loadPlacesTheProgram : Obligations.LoadPlacesTheProgram := by
  unfold Obligations.LoadPlacesTheProgram
  refine fun bytes s => ⟨fun hlen hf => ⟨_, hostMove_load hlen hf, rfl, fun k hk => ?_, fun a ha => ?_, ?_⟩,
    fun hlen => if_pos hlen, fun hlen hf => ?_⟩
  · rw [State.setPc_memByte, State.setMem_memByte, cellRead_fillBytes, if_pos (by omega), Nat.add_sub_cancel_left,
      List.getD_eq_getElem _ _ hk]
  · rw [State.setPc_memByte, State.setMem_memByte, cellRead_fillBytes, if_neg ha, memByte]
  · exact (s.unchangedBut_setMem _).trans (State.unchangedBut_setPc _ _)
  · have fits : ¬Config.maxProgram < bytes.length := not_lt.2 hlen
    show hostLoad bytes s = _
    rw [hostLoad, if_neg fits, if_pos hf]

theorem unchangedBut_frameRate (s : State) (r : Half) : s.unchangedBut { s with fr := r } [.frameRate] := by
  intro p hp
  cases p with
  | frameRate => simp at hp
  | reg | pc | index | mem | disp | stack | dt | st | remainders | lastKeyState | sndOn | fault | toggles |
    params | inputs | events => simp [Part.same, State.reg, memByte, pixel]

/-- Settles O57. -/
theorem frameRateWriteStoresOnly : Obligations.FrameRateWriteStoresOnly := by
  unfold Obligations.FrameRateWriteStoresOnly
  exact fun r s => ⟨fun hr => ⟨_, if_neg hr, rfl, unchangedBut_frameRate s r⟩, fun hr => if_pos hr⟩

/-- Writing the bytes an address range holds while unlisted lists nothing. -/
theorem fillBytes_blank (bs : List Byte) : ∀ a : Nat, (∀ k (_ : k < bs.length), bs[k] = blankMem (a + k)) →
    fillBytes [] a bs = [] := by
  induction bs with
  | nil => intro a _; rfl
  | cons b t ih =>
    intro a h
    have hb : b = blankMem a := h 0 (Nat.zero_lt_succ _)
    have hwrite : cellWrite blankMem [] a b = [] := if_pos hb
    rw [fillBytes, hwrite]
    refine ih (a + 1) fun k hk => ?_
    rw [Nat.add_assoc, Nat.add_comm 1 k]
    exact h (k + 1) (Nat.succ_lt_succ hk)

theorem blankMem_font {k : Nat} (hk : k < 80) : blankMem (0x050 + k) = Config.defaultFont[k] := by
  rw [blankMem, if_pos (by omega), Nat.add_sub_cancel_left, List.getD_eq_getElem _ _ (by simpa using hk),
    Vector.getElem_toList]

/-- The default font is what memory reads at its addresses with nothing listed, so `resetWith` lists none of it. -/
theorem reset_eq_resetWith : State.reset = State.resetWith Config.defaultParams := by
  have hfont : fillBytes [] Config.fontBase Config.defaultParams.font.toList = [] :=
    fillBytes_blank _ _ fun k hk => by
      rw [Vector.getElem_toList]
      exact (blankMem_font (by simpa using hk)).symm
  rw [State.resetWith, hfont]
  rfl

theorem memByte_resetWith (p : Config.Params) (a : Nat) : memByte (State.resetWith p) a =
    if 0x050 ≤ a ∧ a < 0x050 + 80 then p.font.toList.getD (a - 0x050) 0 else blankMem a := by
  have h := cellRead_fillBytes p.font.toList [] 0x050 a
  rwa [Vector.length_toList] at h

theorem memByte_resetWith_font (p : Config.Params) {k : Nat} (hk : k < 80) :
    memByte (State.resetWith p) (0x050 + k) = p.font[k] := by
  rw [memByte_resetWith, if_pos (by omega), Nat.add_sub_cancel_left, List.getD_eq_getElem _ _ (by simpa using hk),
    Vector.getElem_toList]

theorem memByte_resetWith_zero (p : Config.Params) {a : Nat} (ha : ¬(0x050 ≤ a ∧ a < 0x0A0)) :
    memByte (State.resetWith p) a = 0 := by
  rw [memByte_resetWith, if_neg (by omega), blankMem, if_neg ha]

/-- Settles O1. -/
theorem resetLeavesTheResetTable : Obligations.ResetLeavesTheResetTable := by
  unfold Obligations.ResetLeavesTheResetTable
  refine ⟨reset_eq_resetWith, rfl, rfl, by decide, fun s => ⟨_, rfl, ?_⟩⟩
  have zeroReg (x : Nibble) : (hostReset s).reg x = 0 := Vector.getElem_replicate _
  have zeroSlot (k : Nat) (hk : k < 16) : (hostReset s).stack[k] = 0x0000 := Vector.getElem_replicate _
  exact ⟨zeroReg, rfl, rfl, fun k hk => memByte_resetWith_font s.par hk, fun a _ ha => memByte_resetWith_zero s.par ha,
    fun _ _ _ _ => rfl, zeroSlot, rfl, rfl, rfl, rfl, rfl, rfl, rfl, rfl, rfl, rfl, rfl, rfl, rfl⟩

end Sys2Proof.Machine
